-- ==== Sys2Proof/Word.lean ====
section
/-! DEFINITION. The word types of the machine: `Word`, one register, pointer or pc value (00_scope.md R9, XLEN = 64), and
`Byte`, one memory byte (20_memory.md R40). -/

namespace Sys2Proof

/-- A 64-bit value: a register, a pointer, the pc, a target field (R9, R28). -/
abbrev Word := BitVec 64

/-- One byte of the memory bank (R40). -/
abbrev Byte := BitVec 8

end Sys2Proof
end

