-- ==== Sys2Proof/Machine/Alu.lean ====
section
/-! DEFINITION. The result functions `f_OP` of the arithmetic and logic instructions on `N`-bit patterns (43_arithmetic_logic.md
R141 to R150). Results wrap modulo `2^N`; nothing saturates, traps or sets a flag (R150). -/

namespace Sys2Proof.Machine

/-- `f_ADD`, the carry discarded (R141). -/
def fAdd {n : Nat} (va vb : BitVec n) : BitVec n := va + vb

/-- `f_SUB`, the borrow discarded (R142). -/
def fSub {n : Nat} (va vb : BitVec n) : BitVec n := va - vb

/-- `f_MUL`, the low half of the product (R143). -/
def fMul {n : Nat} (va vb : BitVec n) : BitVec n := va * vb

/-- `f_AND` (R144). -/
def fAnd {n : Nat} (va vb : BitVec n) : BitVec n := va &&& vb

/-- `f_OR` (R145). -/
def fOr {n : Nat} (va vb : BitVec n) : BitVec n := va ||| vb

/-- `f_XOR` (R146). -/
def fXor {n : Nat} (va vb : BitVec n) : BitVec n := va ^^^ vb

/-- The shift amount `s = vb mod N` (R147 to R149). -/
def shiftAmount {n : Nat} (vb : BitVec n) : Nat := vb.toNat % n

/-- `f_SHL` (R147). -/
def fShl {n : Nat} (va vb : BitVec n) : BitVec n := va <<< shiftAmount vb

/-- `f_SHR`, zeros entering at the top (R148). -/
def fShr {n : Nat} (va vb : BitVec n) : BitVec n := va >>> shiftAmount vb

/-- `f_SAR`, copies of the sign bit entering at the top (R149). -/
def fSar {n : Nat} (va vb : BitVec n) : BitVec n := va.sshiftRight (shiftAmount vb)

end Sys2Proof.Machine
end

