-- ==== Sys2Proof/Syntax.lean ====
section
/-! DEFINITION. The abstract syntax: operand widths (00_scope.md R14), Operand Address descriptors (40_operand_addressing.md
R90) and the 18 instructions of the VMR-REF catalog (30_encoding.md R73), one constructor per row of the opcode table. -/

namespace Sys2Proof

/-- The four Typed Cell widths; there is no other access width (R14). -/
inductive Width where
  | w1 | w2 | w4 | w8
deriving DecidableEq, Repr

/-- The width in bytes, `w` in the spec's rules (R66). -/
def Width.bytes : Width → Nat
  | .w1 => 1
  | .w2 => 2
  | .w4 => 4
  | .w8 => 8

/-- The width in bits, `N = 8w` in the spec's rules (R140). -/
def Width.bits (w : Width) : Nat := 8 * w.bytes

/-- An Operand Address descriptor (R90): the index and the two mode bits. `rawIndex` is a natural number; VMR-REF encodes
only those below `2^62` (R67), which is `OperandAddr.wellFormed`. -/
structure OperandAddr where
  rawIndex   : Nat
  isRegister : Bool
  isIndirect : Bool
deriving DecidableEq, Repr

/-- `rN`, register-direct (R76, R94). -/
def OperandAddr.reg (n : Nat) : OperandAddr := ⟨n, true, false⟩

/-- `[rN]`, register-indirect (R76, R95). -/
def OperandAddr.regInd (n : Nat) : OperandAddr := ⟨n, true, true⟩

/-- `[A]`, memory-direct (R76, R92). -/
def OperandAddr.mem (a : Nat) : OperandAddr := ⟨a, false, false⟩

/-- `[[A]]`, memory-indirect (R76, R93). -/
def OperandAddr.memInd (a : Nat) : OperandAddr := ⟨a, false, true⟩

/-- The VMR-REF instructions, operands in encoding order (R70, R76). -/
inductive Instr where
  /-- HALT (R120). -/
  | halt
  /-- MOV.w dst, src (R130). -/
  | mov (w : Width) (dst src : OperandAddr)
  /-- LDI.w dst, imm (R131); the immediate is exactly `w` bytes wide (R68). -/
  | ldi (w : Width) (dst : OperandAddr) (imm : BitVec w.bits)
  /-- ADD.w dst, a, b (R141). -/
  | add (w : Width) (dst a b : OperandAddr)
  /-- SUB.w dst, a, b (R142). -/
  | sub (w : Width) (dst a b : OperandAddr)
  /-- MUL.w dst, a, b (R143). -/
  | mul (w : Width) (dst a b : OperandAddr)
  /-- AND.w dst, a, b (R144). -/
  | and (w : Width) (dst a b : OperandAddr)
  /-- OR.w dst, a, b (R145). -/
  | or (w : Width) (dst a b : OperandAddr)
  /-- XOR.w dst, a, b (R146). -/
  | xor (w : Width) (dst a b : OperandAddr)
  /-- SHL.w dst, a, b (R147). -/
  | shl (w : Width) (dst a b : OperandAddr)
  /-- SHR.w dst, a, b (R148). -/
  | shr (w : Width) (dst a b : OperandAddr)
  /-- SAR.w dst, a, b (R149). -/
  | sar (w : Width) (dst a b : OperandAddr)
  /-- JMP target (R161). -/
  | jmp (target : Word)
  /-- JEQ.w a, b, target (R163). -/
  | jeq (w : Width) (a b : OperandAddr) (target : Word)
  /-- JNE.w a, b, target (R164). -/
  | jne (w : Width) (a b : OperandAddr) (target : Word)
  /-- JLTU.w a, b, target (R165). -/
  | jltu (w : Width) (a b : OperandAddr) (target : Word)
  /-- JLTS.w a, b, target (R166). -/
  | jlts (w : Width) (a b : OperandAddr) (target : Word)
  /-- JMPR.w src (R162). -/
  | jmpr (w : Width) (src : OperandAddr)
deriving DecidableEq, Repr

/-- The descriptor operands in field order (R70). Immediates and targets are no descriptors (R75, R99). -/
def Instr.operands : Instr → List OperandAddr
  | .halt => []
  | .mov _ dst src => [dst, src]
  | .ldi _ dst _ => [dst]
  | .add _ dst a b => [dst, a, b]
  | .sub _ dst a b => [dst, a, b]
  | .mul _ dst a b => [dst, a, b]
  | .and _ dst a b => [dst, a, b]
  | .or _ dst a b => [dst, a, b]
  | .xor _ dst a b => [dst, a, b]
  | .shl _ dst a b => [dst, a, b]
  | .shr _ dst a b => [dst, a, b]
  | .sar _ dst a b => [dst, a, b]
  | .jmp _ => []
  | .jeq _ a b _ => [a, b]
  | .jne _ a b _ => [a, b]
  | .jltu _ a b _ => [a, b]
  | .jlts _ a b _ => [a, b]
  | .jmpr _ src => [src]

end Sys2Proof
end

