-- ==== Sys2Proof/WellFormed.lean ====
section
/-! DEFINITION. Which instructions VMR-REF can encode. Every operand value decodes (30_encoding.md R75); the one limit on the
syntax is the 62-bit index field of a descriptor (R67), which the assembler refuses to exceed (R78). An immediate that does
not fit its width (42_data_movement.md R131) cannot be written in `Instr.ldi` at all. -/

namespace Sys2Proof

/-- The index fits the descriptor's 62-bit field (R67, R78). -/
def OperandAddr.wellFormed (d : OperandAddr) : Bool := decide (d.rawIndex < 2 ^ 62)

/-- Every descriptor of the instruction fits its field. -/
def Instr.wellFormed (i : Instr) : Bool := i.operands.all OperandAddr.wellFormed

end Sys2Proof
end

