-- ==== Sys2Proof/Decode.lean ====
section
/-! DEFINITION. VMR-REF's binary encoding (30_encoding.md R64 to R78): the opcode byte and its length, the decoder, which is
total on any bytes and rejects by name, and after it the encoder. The byte order stands here once (`leValue`, `leBytes`) and
the memory bank uses the same two functions (20_memory.md R45). -/

namespace Sys2Proof

/-! ### Byte order -/

/-- The value of a byte sequence, little-endian: the first byte is the least significant (20_memory.md R44). -/
def leValue : List Byte → Nat
  | [] => 0
  | b :: bs => b.toNat + 256 * leValue bs

/-- The low `n` bytes of a value, little-endian (20_memory.md R45). -/
def leBytes : Nat → Nat → List Byte
  | 0, _ => []
  | n + 1, v => BitVec.ofNat 8 v :: leBytes n (v / 256)

/-! ### The opcode byte -/

/-- The decoded identity of an instruction (its tag, 00_scope.md R17) with the operand width its width code gives. HALT and
JMP have no data width (R66). -/
inductive Opcode where
  | halt
  | mov (w : Width) | ldi (w : Width)
  | add (w : Width) | sub (w : Width) | mul (w : Width)
  | and (w : Width) | or (w : Width) | xor (w : Width)
  | shl (w : Width) | shr (w : Width) | sar (w : Width)
  | jmp
  | jeq (w : Width) | jne (w : Width) | jltu (w : Width) | jlts (w : Width)
  | jmpr (w : Width)
deriving DecidableEq, Repr

/-- The width a width code names, `w = 1 << wc` (R66). -/
def widthOfCode : Nat → Width
  | 0 => .w1
  | 1 => .w2
  | 2 => .w4
  | _ => .w8

/-- The width code of a width (R66). -/
def codeOfWidth : Width → Nat
  | .w1 => 0
  | .w2 => 1
  | .w4 => 2
  | .w8 => 3

/-- The opcode map (R73) on the fields `op = b[7:2]` and `wc = b[1:0]` (R65); `none` is an illegal byte (R74). -/
def opcodeOfByte (b : Byte) : Option Opcode :=
  let wc := (b.extractLsb' 0 2).toNat
  let w := widthOfCode wc
  match (b.extractLsb' 2 6).toNat with
  | 0x01 => if wc = 0 then some .halt else none
  | 0x02 => some (.mov w)
  | 0x03 => some (.ldi w)
  | 0x04 => some (.add w)
  | 0x05 => some (.sub w)
  | 0x06 => some (.mul w)
  | 0x07 => some (.and w)
  | 0x08 => some (.or w)
  | 0x09 => some (.xor w)
  | 0x0A => some (.shl w)
  | 0x0B => some (.shr w)
  | 0x0C => some (.sar w)
  | 0x0D => if wc = 0 then some .jmp else none
  | 0x0E => some (.jeq w)
  | 0x0F => some (.jne w)
  | 0x10 => some (.jltu w)
  | 0x11 => some (.jlts w)
  | 0x12 => some (.jmpr w)
  | _ => none

/-- `LEN`, the encoded length in bytes, from the opcode byte alone (R70, R71, R73). -/
def Opcode.length : Opcode → Nat
  | .halt => 1
  | .mov _ => 17
  | .ldi w => 9 + w.bytes
  | .add _ | .sub _ | .mul _ | .and _ | .or _ | .xor _ | .shl _ | .shr _ | .sar _ => 25
  | .jmp => 9
  | .jeq _ | .jne _ | .jltu _ | .jlts _ => 25
  | .jmpr _ => 9

/-! ### Fields -/

/-- `D(k)`, the `k`-th 8-byte field after the opcode byte (R72). -/
def fieldWord (bytes : List Byte) (k : Nat) : Word :=
  BitVec.ofNat 64 (leValue ((bytes.drop (1 + 8 * k)).take 8))

/-- `desc(k)`'s unpacking: bit 63 is_register, bit 62 is_indirect, bits 61:0 raw_index (R67, R72). -/
def unpackDescriptor (D : Word) : OperandAddr where
  rawIndex   := (D.extractLsb' 0 62).toNat
  isRegister := D.getLsbD 63
  isIndirect := D.getLsbD 62

/-- `desc(k)` (R72). -/
def fieldDescriptor (bytes : List Byte) (k : Nat) : OperandAddr := unpackDescriptor (fieldWord bytes k)

/-- LDI's immediate, the `w` bytes at offset 9, unsigned and never extended (R68, R72). -/
def fieldImmediate (bytes : List Byte) (w : Width) : BitVec w.bits :=
  BitVec.ofNat w.bits (leValue ((bytes.drop 9).take w.bytes))

/-! ### The decoder -/

/-- The instruction an opcode and the instruction's bytes spell (R70, R72). No field value is illegal (R75), so this is
total; the length is checked before it. -/
def Opcode.build (o : Opcode) (bytes : List Byte) : Instr :=
  match o with
  | .halt => .halt
  | .mov w => .mov w (fieldDescriptor bytes 0) (fieldDescriptor bytes 1)
  | .ldi w => .ldi w (fieldDescriptor bytes 0) (fieldImmediate bytes w)
  | .add w => .add w (fieldDescriptor bytes 0) (fieldDescriptor bytes 1) (fieldDescriptor bytes 2)
  | .sub w => .sub w (fieldDescriptor bytes 0) (fieldDescriptor bytes 1) (fieldDescriptor bytes 2)
  | .mul w => .mul w (fieldDescriptor bytes 0) (fieldDescriptor bytes 1) (fieldDescriptor bytes 2)
  | .and w => .and w (fieldDescriptor bytes 0) (fieldDescriptor bytes 1) (fieldDescriptor bytes 2)
  | .or w => .or w (fieldDescriptor bytes 0) (fieldDescriptor bytes 1) (fieldDescriptor bytes 2)
  | .xor w => .xor w (fieldDescriptor bytes 0) (fieldDescriptor bytes 1) (fieldDescriptor bytes 2)
  | .shl w => .shl w (fieldDescriptor bytes 0) (fieldDescriptor bytes 1) (fieldDescriptor bytes 2)
  | .shr w => .shr w (fieldDescriptor bytes 0) (fieldDescriptor bytes 1) (fieldDescriptor bytes 2)
  | .sar w => .sar w (fieldDescriptor bytes 0) (fieldDescriptor bytes 1) (fieldDescriptor bytes 2)
  | .jmp => .jmp (fieldWord bytes 0)
  | .jeq w => .jeq w (fieldDescriptor bytes 0) (fieldDescriptor bytes 1) (fieldWord bytes 2)
  | .jne w => .jne w (fieldDescriptor bytes 0) (fieldDescriptor bytes 1) (fieldWord bytes 2)
  | .jltu w => .jltu w (fieldDescriptor bytes 0) (fieldDescriptor bytes 1) (fieldWord bytes 2)
  | .jlts w => .jlts w (fieldDescriptor bytes 0) (fieldDescriptor bytes 1) (fieldWord bytes 2)
  | .jmpr w => .jmpr w (fieldDescriptor bytes 0)

/-- Why a byte sequence spells no instruction. -/
inductive DecodeError where
  /-- There is no opcode byte. -/
  | noBytes
  /-- The opcode byte is one of the 190 illegal ones (R74). -/
  | noSuchOpcode (byte : Byte)
  /-- The opcode byte is legal and the sequence is shorter than its instruction. -/
  | truncated (length : Nat)
deriving DecidableEq, Repr

/-- The decoder: the instruction at the head of a byte sequence and the bytes after it, or the reason there is none. -/
def decode : List Byte → Except DecodeError (Instr × List Byte)
  | [] => .error .noBytes
  | b :: bs =>
    match opcodeOfByte b with
    | none => .error (.noSuchOpcode b)
    | some o =>
      if bs.length + 1 < o.length then .error (.truncated o.length)
      else .ok (o.build (b :: bs), (b :: bs).drop o.length)

/-- The length in bytes of the longest instruction (R64, R70). -/
def maxInstrLength : Nat := 25

/-- The bytes of an instruction whose low `nbits` bits are `w`, the opcode table's bit numbering (bit 0 is bit 0 of the first
byte), every bit above `nbits` zero, up to the longest instruction. -/
def tableBytes (nbits w : Nat) : List Byte := leBytes maxInstrLength (w % 2 ^ nbits)

/-- The instruction the decoder reads from an opcode-table word. -/
def decodeTableWord (nbits w : Nat) : Option Instr :=
  match decode (tableBytes nbits w) with
  | .ok (i, _) => some i
  | .error _ => none

/-! ### The encoder -/

/-- `op`, the operation number (R73). -/
def Opcode.op : Opcode → Nat
  | .halt => 0x01
  | .mov _ => 0x02
  | .ldi _ => 0x03
  | .add _ => 0x04
  | .sub _ => 0x05
  | .mul _ => 0x06
  | .and _ => 0x07
  | .or _ => 0x08
  | .xor _ => 0x09
  | .shl _ => 0x0A
  | .shr _ => 0x0B
  | .sar _ => 0x0C
  | .jmp => 0x0D
  | .jeq _ => 0x0E
  | .jne _ => 0x0F
  | .jltu _ => 0x10
  | .jlts _ => 0x11
  | .jmpr _ => 0x12

/-- `wc`, the width code; 0 for HALT and JMP (R66, R73). -/
def Opcode.wc : Opcode → Nat
  | .halt | .jmp => 0
  | .mov w | .ldi w | .add w | .sub w | .mul w | .and w | .or w | .xor w | .shl w | .shr w | .sar w
  | .jeq w | .jne w | .jltu w | .jlts w | .jmpr w => codeOfWidth w

/-- The opcode byte `op * 4 + wc` (R65, R78). -/
def Opcode.byte (o : Opcode) : Byte := BitVec.ofNat 8 (o.op * 4 + o.wc)

/-- The opcode of an instruction. -/
def Instr.opcode : Instr → Opcode
  | .halt => .halt
  | .mov w _ _ => .mov w
  | .ldi w _ _ => .ldi w
  | .add w _ _ _ => .add w
  | .sub w _ _ _ => .sub w
  | .mul w _ _ _ => .mul w
  | .and w _ _ _ => .and w
  | .or w _ _ _ => .or w
  | .xor w _ _ _ => .xor w
  | .shl w _ _ _ => .shl w
  | .shr w _ _ _ => .shr w
  | .sar w _ _ _ => .sar w
  | .jmp _ => .jmp
  | .jeq w _ _ _ => .jeq w
  | .jne w _ _ _ => .jne w
  | .jltu w _ _ _ => .jltu w
  | .jlts w _ _ _ => .jlts w
  | .jmpr w _ => .jmpr w

/-- The instruction's encoded length in bytes (R70). -/
def Instr.length (i : Instr) : Nat := i.opcode.length

/-- The descriptor word: `2^63` if is_register, `2^62` if is_indirect, plus the index (R67, R78). -/
def packDescriptor (d : OperandAddr) : Word :=
  BitVec.ofNat 64 ((if d.isRegister then 2 ^ 63 else 0) + (if d.isIndirect then 2 ^ 62 else 0) + d.rawIndex)

/-- A 64-bit field as 8 little-endian bytes (R78). -/
def wordBytes (v : Word) : List Byte := leBytes 8 v.toNat

/-- A descriptor field's bytes (R78). -/
def descriptorBytes (d : OperandAddr) : List Byte := wordBytes (packDescriptor d)

/-- The fields after the opcode byte, in format order (R70). -/
def Instr.fieldBytes : Instr → List Byte
  | .halt => []
  | .mov _ dst src => descriptorBytes dst ++ descriptorBytes src
  | .ldi w dst imm => descriptorBytes dst ++ leBytes w.bytes imm.toNat
  | .add _ dst a b | .sub _ dst a b | .mul _ dst a b | .and _ dst a b | .or _ dst a b | .xor _ dst a b
  | .shl _ dst a b | .shr _ dst a b | .sar _ dst a b =>
    descriptorBytes dst ++ descriptorBytes a ++ descriptorBytes b
  | .jmp target => wordBytes target
  | .jeq _ a b target | .jne _ a b target | .jltu _ a b target | .jlts _ a b target =>
    descriptorBytes a ++ descriptorBytes b ++ wordBytes target
  | .jmpr _ src => descriptorBytes src

/-- The encoding of a well-formed instruction (R78); of an ill-formed one nothing is claimed, the assembler refuses it. -/
def encode (i : Instr) : List Byte := i.opcode.byte :: i.fieldBytes

end Sys2Proof
end

