-- ==== Sys2Proof/Config.lean ====
section
/-! DEFINITION. The parameters of a run (00_scope.md R7, R8, R11; 10_state.md R38) at the values `State.reset` takes for
them. They are named here and nowhere else; `Sys2Proof.Machine.launch` takes them as arguments, and every statement about a
step holds for all their values, because they are carried in the state (log entries 1, 2 and 3). -/

namespace Sys2Proof

/-- `MEM_EXP` at `State.reset`: a bank of 65536 bytes.
DESIGN CHOICE (log entry 2, unsafe): the spec leaves the exponent to the run; 16 is the one exponent DOC's scenarios name. -/
def Config.resetMemExp : Fin 64 := 16

/-- `REG_COUNT` at `State.reset`.
DESIGN CHOICE (log entry 2, unsafe): the spec leaves the count to the run; 10 is the one count DOC's scenarios name. -/
def Config.resetRegCount : Nat := 10

/-- What every register holds at `State.reset`.
DESIGN CHOICE (log entry 3, unsafe): the spec gives no register reset value (10_state.md R26). -/
def Config.resetRegister : Word := 0

end Sys2Proof
end

