-- ==== Sys2Proof/Machine/State.lean ====
section
/-! DEFINITION. The architectural state, exactly the five parts of 10_state.md R20 (register file, memory bank, pc, run status,
fault record), with the two size parameters of the run carried beside them (log entry 1), and the state right after reset
(R39). There are no flags, control registers, modes, interrupt state or caches (R34). -/

namespace Sys2Proof.Machine

/-- The memory bank's bytes as (address, byte) pairs in canonical form (`Memory.wf`): addresses strictly rising, no entry
zero. An unlisted address reads 0, the bank's construction value (R36). -/
abbrev Memory := List Host.Cell

/-- A Typed Cell (R21, R22, R23): a raw bit pattern tagged with its width, the unit of transfer between memory and the
datapath. It is never stored. -/
structure TypedCell where
  width   : Width
  payload : BitVec width.bits
deriving DecidableEq, Repr

/-- The run status (R31). -/
inductive RunStatus where
  | running
  | halted
  | faulted
deriving DecidableEq, Repr

/-- The fault causes with the information each records (60_exceptions.md R180 to R183). An operation of the machine raises
one of them, and the step TAKES it: a next state whose status is Faulted (R115). `step` and `exec` never answer
`Host.Outcome.fault` with one (log entry 5). -/
inductive Fault where
  /-- An access to bytes `[address, address + width)` that reach past the bank (R181). Raised by the instruction fetch, by a
  memory-indirect pointer read and by a final operand read or write; safe, the spec raises it there. -/
  | outOfBounds (address width : Nat)
  /-- A register index at or above `REG_COUNT` (R182). Raised by a register-direct or register-indirect operand; safe, the
  spec raises it there. -/
  | invalidRegister (index : Nat)
  /-- An opcode byte that spells no instruction, at the pc it was fetched from (R183). Raised by the instruction fetch; safe,
  the spec raises it there. -/
  | invalidOpcode (pc : Word) (byte : Byte)
deriving DecidableEq, Repr

/-- What the machine gives no meaning and never starts (00_scope.md R18, "Refused"). No instruction and no step answers a
refusal. -/
inductive Refusal where
  /-- An instruction without a meaning; no arm of `exec` answers it. Safe. -/
  | notModelled (mnemonic : String)
  /-- Raised by `launch` on `MEM_EXP > 63` (70_reset_and_hazards.md R201). Safe: the spec refuses the configuration. -/
  | memExpTooLarge (memExp : Nat)
  /-- Raised by `launch` when `REG_INIT` has not exactly `REG_COUNT` entries (R201). Safe: the spec refuses it. -/
  | regInitLength (regCount entries : Nat)
  /-- Raised by `launch` when the program does not fit the bank (R202). Safe: the spec refuses the launch. -/
  | programTooLong (programLength memSize : Nat)
deriving DecidableEq, Repr

/-- The fault record `{kind, info, fault_pc}` (R33): the cause carries kind and info. -/
structure FaultRecord where
  cause   : Fault
  faultPc : Word
deriving DecidableEq, Repr

/-- The architectural state (R20). -/
structure State where
  /-- `MEM_EXP`, 0 to 63 (00_scope.md R7). A parameter of the run that no step changes (R38; log entry 1). -/
  memExp : Fin 64
  /-- `RF`: `x[0]` to `x[REG_COUNT-1]`. Its length is `REG_COUNT` (R24), which no step changes. -/
  regs : List Word
  /-- `MB` (R35). -/
  mem : Memory
  /-- The program counter (R28). -/
  pc : Word
  /-- The run status (R31). -/
  status : RunStatus
  /-- The fault record, `none` until the run faults (R33). -/
  fault : Option FaultRecord
deriving DecidableEq, Repr

/-- The machine right after reset, with no program loaded (R39, R204): pc 0, Running, no fault record, the bank all zero. The
two sizes and the register contents are the values `Config` names (log entries 2 and 3); `launch` takes them as arguments. -/
def State.reset : State where
  memExp := Config.resetMemExp
  regs   := List.replicate Config.resetRegCount Config.resetRegister
  mem    := []
  pc     := 0
  status := .running
  fault  := none

end Sys2Proof.Machine
end

