-- ==== Sys2Proof/Machine/Ops.lean ====
section
/-! DEFINITION. The named operations over the state: the field updates, the byte-level memory, the memory bank's read and write
ports (20_memory.md R41, R42), the register file's ports (10_state.md R25), and taking a fault (41_fetch_execute.md R115).
There is no return from a fault (60_exceptions.md R187), so nothing stands beside it. -/

namespace Sys2Proof.Machine

/-! ### Sizes -/

/-- `MEM_SIZE = 1 << MEM_EXP` (00_scope.md R7). -/
def State.memSize (s : State) : Nat := 2 ^ s.memExp.val

/-- `REG_COUNT` (00_scope.md R8). -/
def State.regCount (s : State) : Nat := s.regs.length

/-! ### Field updates -/

def State.withRegs (s : State) (regs : List Word) : State := { s with regs := regs }
def State.withMem (s : State) (mem : Memory) : State := { s with mem := mem }
def State.withPc (s : State) (pc : Word) : State := { s with pc := pc }
def State.withStatus (s : State) (status : RunStatus) : State := { s with status := status }
def State.withFault (s : State) (fault : Option FaultRecord) : State := { s with fault := fault }

/-! ### Bytes of memory -/

/-- The canonical form: addresses strictly rising, no entry zero. -/
abbrev Memory.wf (m : Memory) : Prop :=
  m.Pairwise (fun c c' => c.1 < c'.1) ∧ ∀ c ∈ m, c.2 ≠ 0

/-- `M[a]`: an address nothing has written holds 0 (10_state.md R36). -/
def Memory.read : Memory → Nat → Byte
  | [], _ => 0
  | (k, b) :: m, a => if k = a then b else Memory.read m a

/-- Every entry at `a` removed, so that `a` reads 0. -/
def Memory.erase : Memory → Nat → Memory
  | [], _ => []
  | (k, b) :: m, a => if k = a then Memory.erase m a else (k, b) :: Memory.erase m a

/-- An entry put before the first higher address. -/
def Memory.insert : Memory → Nat → Byte → Memory
  | [], a, v => [(a, v)]
  | (k, b) :: m, a, v => if a < k then (a, v) :: (k, b) :: m else (k, b) :: Memory.insert m a v

/-- `M[a] <- v`. Writing 0 removes the entry, so equal contents are equal lists. -/
def Memory.write (m : Memory) (a : Nat) (v : Byte) : Memory :=
  if v = 0 then m.erase a else (m.erase a).insert a v

/-- The `n` bytes from address `a` up. -/
def Memory.readBytes (m : Memory) : Nat → Nat → List Byte
  | _, 0 => []
  | a, n + 1 => m.read a :: Memory.readBytes m (a + 1) n

/-- The bytes written one after another from address `a` up. -/
def Memory.writeBytes : Memory → Nat → List Byte → Memory
  | m, _, [] => m
  | m, a, b :: bs => Memory.writeBytes (m.write a b) (a + 1) bs

/-! ### The memory bank's ports -/

/-- `MemRead(a, w)` (R41): the exact bounds check (R43), then the little-endian value (R44). A read changes no state (R49). -/
def memRead (s : State) (a : Nat) (w : Width) : Except Fault (BitVec w.bits) :=
  if a + w.bytes > s.memSize then .error (.outOfBounds a w.bytes)
  else .ok (BitVec.ofNat w.bits (leValue (s.mem.readBytes a w.bytes)))

/-- `MemWrite(a, w, v)` (R42): the check comes before any byte changes; then bits `8k+7:8k` go to address `a+k` (R45). -/
def memWrite (s : State) (a : Nat) (w : Width) (v : BitVec w.bits) : Except Fault State :=
  if a + w.bytes > s.memSize then .error (.outOfBounds a w.bytes)
  else .ok (s.withMem (s.mem.writeBytes a (leBytes w.bytes v.toNat)))

/-- `MB.read(w, a)` as a Typed Cell: the same primitive as `memRead` (R41). -/
def mbRead (s : State) (w : Width) (a : Nat) : Except Fault TypedCell := do
  let v ← memRead s a w
  .ok ⟨w, v⟩

/-- `MB.write(cell, a)`: the width is the cell's own (R42, 10_state.md R23). -/
def mbWrite (s : State) (cell : TypedCell) (a : Nat) : Except Fault State :=
  memWrite s a cell.width cell.payload

/-! ### The register file's ports -/

/-- `RF.read(i)` (10_state.md R25). -/
def readReg (s : State) (i : Nat) : Except Fault Word :=
  match s.regs[i]? with
  | some v => .ok v
  | none => .error (.invalidRegister i)

/-- `RF.write(i, v)` (10_state.md R25): a faulting write changes nothing, a good one replaces the whole register. -/
def writeReg (s : State) (i : Nat) (v : Word) : Except Fault State :=
  if i ≥ s.regCount then .error (.invalidRegister i) else .ok (s.withRegs (s.regs.set i v))

/-! ### Faults -/

/-- The three fault kinds (60_exceptions.md R180). -/
inductive FaultKind where
  | outOfBounds
  | invalidRegister
  | invalidOpcode
deriving DecidableEq, Repr

/-- The kind of a cause (R180). -/
def Fault.kind : Fault → FaultKind
  | .outOfBounds _ _ => .outOfBounds
  | .invalidRegister _ => .invalidRegister
  | .invalidOpcode _ _ => .invalidOpcode

/-- The numeric code of a kind (R180); no instruction reads it. -/
def FaultKind.code : FaultKind → Nat
  | .outOfBounds => 1
  | .invalidRegister => 2
  | .invalidOpcode => 3

/-- `OnFault` (41_fetch_execute.md R115, 60_exceptions.md R186): the status becomes Faulted, the record names the cause and the
pc of the faulting step; RF, MB and pc keep the values they had at the start of the step. -/
def takeFault (f : Fault) (s : State) : State :=
  (s.withStatus .faulted).withFault (some ⟨f, s.pc⟩)

end Sys2Proof.Machine
end

