-- ==== Sys2Proof/Machine/Operands.lean ====
section
/-! DEFINITION. The operand address resolver (40_operand_addressing.md): the four modes, reading and writing through a
descriptor. Reads and writes use the same resolution (R98). -/

namespace Sys2Proof.Machine

/-- A final location (00_scope.md R17): a register or a memory address. -/
inductive Location where
  | reg (i : Nat)
  | mem (a : Nat)
deriving DecidableEq, Repr

/-- `Resolve(d)`, the four-row table of R91. -/
def resolve (s : State) (d : OperandAddr) : Except Fault Location :=
  match d.isRegister, d.isIndirect with
  | false, false => .ok (.mem d.rawIndex)
  | false, true => do
    let p ← memRead s d.rawIndex .w8
    .ok (.mem p.toNat)
  | true, false =>
    if d.rawIndex ≥ s.regCount then .error (.invalidRegister d.rawIndex) else .ok (.reg d.rawIndex)
  | true, true => do
    let p ← readReg s d.rawIndex
    .ok (.mem p.toNat)

/-- The `w`-byte value at a final location: the low `8w` bits of a register (10_state.md R27), or the memory bytes. -/
def readLocation (s : State) (loc : Location) (w : Width) : Except Fault (BitVec w.bits) :=
  match loc with
  | .reg i => do
    let v ← readReg s i
    .ok (v.setWidth w.bits)
  | .mem a => memRead s a w

/-- A `w`-byte value written to a final location: a register is replaced whole by the zero-extended value (10_state.md R27),
memory changes in exactly `w` bytes. -/
def writeLocation (s : State) (loc : Location) (w : Width) (v : BitVec w.bits) : Except Fault State :=
  match loc with
  | .reg i => writeReg s i (v.setWidth 64)
  | .mem a => memWrite s a w v

/-- `ReadOperand(d, w)` (R96). -/
def readOperand (s : State) (d : OperandAddr) (w : Width) : Except Fault (BitVec w.bits) := do
  let loc ← resolve s d
  readLocation s loc w

/-- `WriteOperand(d, w, v)` (R97). -/
def writeOperand (s : State) (d : OperandAddr) (w : Width) (v : BitVec w.bits) : Except Fault State := do
  let loc ← resolve s d
  writeLocation s loc w v

end Sys2Proof.Machine
end

