-- ==== Sys2Proof/Machine/Execute.lean ====
section
/-! DEFINITION. The execute stage's shape (41_fetch_execute.md R113 to R115): an instruction computes an effect or a fault from
the state at the start of the step; the effect is committed, the destination write first, or the fault is taken. -/

namespace Sys2Proof.Machine

/-- The one architectural write of an instruction: a Typed Cell to a descriptor (R113). -/
structure WriteRequest where
  dst  : OperandAddr
  cell : TypedCell
deriving DecidableEq, Repr

/-- What `Execute` answers when it does not fault (R113). -/
structure Effect where
  write  : Option WriteRequest
  nextPc : Word
  halt   : Bool
deriving DecidableEq, Repr

/-- The sequential advance by the instruction's length (10_state.md R29). In a step `pc + len` never wraps; log entry 11 says
what the sum is in states no step executes an instruction in. -/
def advance (s : State) (len : Nat) : Word := s.pc + BitVec.ofNat 64 len

/-- An effect that writes `v` to `dst` and advances past `len` bytes. -/
def writeEffect (s : State) (dst : OperandAddr) (w : Width) (v : BitVec w.bits) (len : Nat) : Effect where
  write  := some ⟨dst, ⟨w, v⟩⟩
  nextPc := advance s len
  halt   := false

/-- An effect that only sets the pc (44_control_transfer.md R160). -/
def jumpEffect (target : Word) : Effect where
  write  := none
  nextPc := target
  halt   := false

/-- The status an effect leaves: Halted if it halts, else as it was (R114). -/
def statusAfter (s : State) (halt : Bool) : RunStatus := if halt then .halted else s.status

/-- `Commit(Effect)` (R114): the write first, which may still fault; then the pc; then the status. -/
def commit (s : State) (e : Effect) : Except Fault State := do
  let t ← match e.write with
    | none => .ok s
    | some r => writeOperand s r.dst r.cell.width r.cell.payload
  .ok ((t.withPc e.nextPc).withStatus (statusAfter t e.halt))

/-- Execute's answer brought to an end: committed, or its fault taken, with nothing of a faulting step left (R114, R115). -/
def finish (s : State) (result : Except Fault Effect) : Host.Outcome State Fault Refusal :=
  match result with
  | .error f => .next (takeFault f s)
  | .ok e =>
    match commit s e with
    | .error f => .next (takeFault f s)
    | .ok t => .next t

end Sys2Proof.Machine
end

