-- ==== Sys2Proof/Machine/Arithmetic.lean ====
section
/-! DEFINITION. The arithmetic and logic instructions (43_arithmetic_logic.md R140 to R149): one common form, and for each
instruction its effect and its meaning. -/

namespace Sys2Proof.Machine

/-- The common form `OP.w dst, a, b` (R140): `a` is read first, `b` second, the destination resolved and written last. -/
def aluEffect (w : Width) (f : BitVec w.bits → BitVec w.bits → BitVec w.bits) (dst a b : OperandAddr) (s : State) :
    Except Fault Effect := do
  let va ← readOperand s a w
  let vb ← readOperand s b w
  .ok (writeEffect s dst w (f va vb) 25)

/-- ADD's effect (R141). -/
def effectAdd (w : Width) (dst a b : OperandAddr) (s : State) : Except Fault Effect := aluEffect w fAdd dst a b s

/-- ADD.w dst, a, b (R141). -/
def execAdd (w : Width) (dst a b : OperandAddr) (s : State) : Host.Outcome State Fault Refusal :=
  finish s (effectAdd w dst a b s)

/-- SUB's effect (R142). -/
def effectSub (w : Width) (dst a b : OperandAddr) (s : State) : Except Fault Effect := aluEffect w fSub dst a b s

/-- SUB.w dst, a, b (R142). -/
def execSub (w : Width) (dst a b : OperandAddr) (s : State) : Host.Outcome State Fault Refusal :=
  finish s (effectSub w dst a b s)

/-- MUL's effect (R143). -/
def effectMul (w : Width) (dst a b : OperandAddr) (s : State) : Except Fault Effect := aluEffect w fMul dst a b s

/-- MUL.w dst, a, b (R143). -/
def execMul (w : Width) (dst a b : OperandAddr) (s : State) : Host.Outcome State Fault Refusal :=
  finish s (effectMul w dst a b s)

/-- AND's effect (R144). -/
def effectAnd (w : Width) (dst a b : OperandAddr) (s : State) : Except Fault Effect := aluEffect w fAnd dst a b s

/-- AND.w dst, a, b (R144). -/
def execAnd (w : Width) (dst a b : OperandAddr) (s : State) : Host.Outcome State Fault Refusal :=
  finish s (effectAnd w dst a b s)

/-- OR's effect (R145). -/
def effectOr (w : Width) (dst a b : OperandAddr) (s : State) : Except Fault Effect := aluEffect w fOr dst a b s

/-- OR.w dst, a, b (R145). -/
def execOr (w : Width) (dst a b : OperandAddr) (s : State) : Host.Outcome State Fault Refusal :=
  finish s (effectOr w dst a b s)

/-- XOR's effect (R146). -/
def effectXor (w : Width) (dst a b : OperandAddr) (s : State) : Except Fault Effect := aluEffect w fXor dst a b s

/-- XOR.w dst, a, b (R146). -/
def execXor (w : Width) (dst a b : OperandAddr) (s : State) : Host.Outcome State Fault Refusal :=
  finish s (effectXor w dst a b s)

/-- SHL's effect (R147). -/
def effectShl (w : Width) (dst a b : OperandAddr) (s : State) : Except Fault Effect := aluEffect w fShl dst a b s

/-- SHL.w dst, a, b (R147). -/
def execShl (w : Width) (dst a b : OperandAddr) (s : State) : Host.Outcome State Fault Refusal :=
  finish s (effectShl w dst a b s)

/-- SHR's effect (R148). -/
def effectShr (w : Width) (dst a b : OperandAddr) (s : State) : Except Fault Effect := aluEffect w fShr dst a b s

/-- SHR.w dst, a, b (R148). -/
def execShr (w : Width) (dst a b : OperandAddr) (s : State) : Host.Outcome State Fault Refusal :=
  finish s (effectShr w dst a b s)

/-- SAR's effect (R149). -/
def effectSar (w : Width) (dst a b : OperandAddr) (s : State) : Except Fault Effect := aluEffect w fSar dst a b s

/-- SAR.w dst, a, b (R149). -/
def execSar (w : Width) (dst a b : OperandAddr) (s : State) : Host.Outcome State Fault Refusal :=
  finish s (effectSar w dst a b s)

end Sys2Proof.Machine
end

