-- ==== Sys2Proof/Machine/Flags.lean ====
section
/-! DEFINITION. The CORE has no flags or condition codes (10_state.md R34): the conditional transfers test operand values
directly. This file holds those four tests (44_control_transfer.md R163 to R166). -/

namespace Sys2Proof.Machine

/-- JEQ's condition (R163). -/
def condEq {n : Nat} (va vb : BitVec n) : Bool := va == vb

/-- JNE's condition (R164). -/
def condNe {n : Nat} (va vb : BitVec n) : Bool := va != vb

/-- JLTU's condition, the unsigned comparison (R165). -/
def condLtu {n : Nat} (va vb : BitVec n) : Bool := va.ult vb

/-- JLTS's condition, the comparison of the two's-complement readings (R166). -/
def condLts {n : Nat} (va vb : BitVec n) : Bool := va.slt vb

end Sys2Proof.Machine
end

