-- ==== Sys2Proof/Machine/ControlTransfer.lean ====
section
/-! DEFINITION. The control transfers (44_control_transfer.md R160 to R166). A target is not checked here; the next fetch checks
it (R160). No transfer writes anything but the pc. -/

namespace Sys2Proof.Machine

/-- JMP's effect (R161). -/
def effectJmp (target : Word) (_s : State) : Except Fault Effect := .ok (jumpEffect target)

/-- JMP target (R161). -/
def execJmp (target : Word) (s : State) : Host.Outcome State Fault Refusal := finish s (effectJmp target s)

/-- JMPR's effect: the target is the zero-extended operand value (R162). -/
def effectJmpr (w : Width) (src : OperandAddr) (s : State) : Except Fault Effect := do
  let t ← readOperand s src w
  .ok (jumpEffect (t.setWidth 64))

/-- JMPR.w src (R162). -/
def execJmpr (w : Width) (src : OperandAddr) (s : State) : Host.Outcome State Fault Refusal :=
  finish s (effectJmpr w src s)

/-- The common form of the conditional transfers (R163): `a` is read first, `b` second; taken or not, only the pc changes. -/
def branchEffect (w : Width) (cond : BitVec w.bits → BitVec w.bits → Bool) (a b : OperandAddr) (target : Word)
    (s : State) : Except Fault Effect := do
  let va ← readOperand s a w
  let vb ← readOperand s b w
  .ok (jumpEffect (if cond va vb then target else advance s 25))

/-- JEQ's effect (R163). -/
def effectJeq (w : Width) (a b : OperandAddr) (target : Word) (s : State) : Except Fault Effect :=
  branchEffect w condEq a b target s

/-- JEQ.w a, b, target (R163). -/
def execJeq (w : Width) (a b : OperandAddr) (target : Word) (s : State) : Host.Outcome State Fault Refusal :=
  finish s (effectJeq w a b target s)

/-- JNE's effect (R164). -/
def effectJne (w : Width) (a b : OperandAddr) (target : Word) (s : State) : Except Fault Effect :=
  branchEffect w condNe a b target s

/-- JNE.w a, b, target (R164). -/
def execJne (w : Width) (a b : OperandAddr) (target : Word) (s : State) : Host.Outcome State Fault Refusal :=
  finish s (effectJne w a b target s)

/-- JLTU's effect (R165). -/
def effectJltu (w : Width) (a b : OperandAddr) (target : Word) (s : State) : Except Fault Effect :=
  branchEffect w condLtu a b target s

/-- JLTU.w a, b, target (R165). -/
def execJltu (w : Width) (a b : OperandAddr) (target : Word) (s : State) : Host.Outcome State Fault Refusal :=
  finish s (effectJltu w a b target s)

/-- JLTS's effect (R166). -/
def effectJlts (w : Width) (a b : OperandAddr) (target : Word) (s : State) : Except Fault Effect :=
  branchEffect w condLts a b target s

/-- JLTS.w a, b, target (R166). -/
def execJlts (w : Width) (a b : OperandAddr) (target : Word) (s : State) : Host.Outcome State Fault Refusal :=
  finish s (effectJlts w a b target s)

end Sys2Proof.Machine
end

