-- ==== Sys2Proof/Machine/DataMovement.lean ====
section
/-! DEFINITION. MOV and LDI (42_data_movement.md R130, R131). -/

namespace Sys2Proof.Machine

/-- MOV's effect (R130). -/
def effectMov (w : Width) (dst src : OperandAddr) (s : State) : Except Fault Effect := do
  let v ← readOperand s src w
  .ok (writeEffect s dst w v 17)

/-- MOV.w dst, src (R130). -/
def execMov (w : Width) (dst src : OperandAddr) (s : State) : Host.Outcome State Fault Refusal :=
  finish s (effectMov w dst src s)

/-- LDI's effect: the immediate as it stands, never extended (R131, 30_encoding.md R68). -/
def effectLdi (w : Width) (dst : OperandAddr) (imm : BitVec w.bits) (s : State) : Except Fault Effect :=
  .ok (writeEffect s dst w imm (9 + w.bytes))

/-- LDI.w dst, imm (R131). -/
def execLdi (w : Width) (dst : OperandAddr) (imm : BitVec w.bits) (s : State) : Host.Outcome State Fault Refusal :=
  finish s (effectLdi w dst imm s)

end Sys2Proof.Machine
end

