-- ==== Sys2Proof/Machine/System.lean ====
section
/-! DEFINITION. The one system instruction, HALT (41_fetch_execute.md R120; 60_exceptions.md R192). -/

namespace Sys2Proof.Machine

/-- HALT's effect: no write, the sequential advance by one byte, and the run ends (R120). -/
def effectHalt (s : State) : Except Fault Effect := .ok ⟨none, advance s 1, true⟩

/-- HALT (R120). -/
def execHalt (s : State) : Host.Outcome State Fault Refusal := finish s (effectHalt s)

end Sys2Proof.Machine
end

