-- ==== Sys2Proof/Machine/Dispatch.lean ====
section
/-! DEFINITION. The dispatch: one arm per instruction of VMR-REF, each one direct call of its meaning. -/

namespace Sys2Proof.Machine

def exec (i : Instr) (s : State) : Host.Outcome State Fault Refusal :=
  match i with
  | .halt => Sys2Proof.Machine.execHalt s
  | .mov w dst src => Sys2Proof.Machine.execMov w dst src s
  | .ldi w dst imm => Sys2Proof.Machine.execLdi w dst imm s
  | .add w dst a b => Sys2Proof.Machine.execAdd w dst a b s
  | .sub w dst a b => Sys2Proof.Machine.execSub w dst a b s
  | .mul w dst a b => Sys2Proof.Machine.execMul w dst a b s
  | .and w dst a b => Sys2Proof.Machine.execAnd w dst a b s
  | .or w dst a b => Sys2Proof.Machine.execOr w dst a b s
  | .xor w dst a b => Sys2Proof.Machine.execXor w dst a b s
  | .shl w dst a b => Sys2Proof.Machine.execShl w dst a b s
  | .shr w dst a b => Sys2Proof.Machine.execShr w dst a b s
  | .sar w dst a b => Sys2Proof.Machine.execSar w dst a b s
  | .jmp target => Sys2Proof.Machine.execJmp target s
  | .jeq w a b target => Sys2Proof.Machine.execJeq w a b target s
  | .jne w a b target => Sys2Proof.Machine.execJne w a b target s
  | .jltu w a b target => Sys2Proof.Machine.execJltu w a b target s
  | .jlts w a b target => Sys2Proof.Machine.execJlts w a b target s
  | .jmpr w src => Sys2Proof.Machine.execJmpr w src s

end Sys2Proof.Machine
end

