-- ==== Sys2Proof/Machine/Fetch.lean ====
section
/-! DEFINITION. The instruction fetch unit and the decode phase (41_fetch_execute.md R111, R112). -/

namespace Sys2Proof.Machine

/-- `Fetch(pc)` (R111), its three checks in the order the rule gives, on exact natural-number sums. It answers the opcode and
the instruction's bytes as the bank holds them now (20_memory.md R56). -/
def fetch (s : State) : Except Fault (Opcode × List Byte) :=
  if s.pc.toNat + 1 > s.memSize then .error (.outOfBounds s.pc.toNat 1)
  else
    match opcodeOfByte (s.mem.read s.pc.toNat) with
    | none => .error (.invalidOpcode s.pc (s.mem.read s.pc.toNat))
    | some o =>
      if s.pc.toNat + o.length > s.memSize then .error (.outOfBounds s.pc.toNat o.length)
      else .ok (o, s.mem.readBytes s.pc.toNat o.length)

/-- Fetch, then decode, which raises no fault of its own (R112). -/
def fetchDecode (s : State) : Except Fault Instr := do
  let (o, bytes) ← fetch s
  .ok (o.build bytes)

/-- The bytes written one after another from `a` up, those at or past `limit` left out. -/
def placeBytes (limit : Nat) : Memory → Nat → List Byte → Memory
  | m, _, [] => m
  | m, a, b :: bs => placeBytes limit (if a < limit then m.write a b else m) (a + 1) bs

end Sys2Proof.Machine
end

