-- ==== Sys2Proof/Machine/Step.lean ====
section
/-! DEFINITION. One step of the CORE (41_fetch_execute.md R110): fetch, decode, execute, commit or fault; and the host's way of
placing one instruction where the next step fetches it. -/

namespace Sys2Proof.Machine

/-- One step. The CORE takes a step only while it is Running (R110); a run that has Halted or Faulted stays as it is, for
good (10_state.md R32; log entry 6). -/
def step (s : State) : Host.Outcome State Fault Refusal :=
  match s.status with
  | .running =>
    match fetchDecode s with
    | .error f => .next (takeFault f s)
    | .ok i => exec i s
  | .halted => .next s
  | .faulted => .next s

/-- `s` with an opcode-table word's instruction stored at its pc and ready to run it: the bytes that lie in the bank, and the
status a fetch needs (log entry 9). -/
def State.withFetchWord (s : State) (nbits w : Nat) : State :=
  ((s.withMem (placeBytes s.memSize s.mem s.pc.toNat (tableBytes nbits w))).withStatus .running).withFault none

end Sys2Proof.Machine
end

