-- ==== Sys2Proof/Machine/Assembler.lean ====
section
/-! DEFINITION. VMR-REF's assembly language (30_encoding.md R76 to R78): the lines a program is written in, the two
pseudo-instructions, labels, the assembler, and the reading of the text form. It is notation, with no effect on the machine
(92_eei_decisions.md D18); what the rules leave open about spelling is log entry 13. -/

namespace Sys2Proof.Machine

/-- A label's name. -/
abbrev Label := List Char

/-- What may stand where an immediate or a target is expected: a plain number or a label (R76). -/
inductive AsmValue where
  | num (n : Nat)
  | label (name : Label)
deriving DecidableEq, Repr

/-- The mnemonics that take three descriptors, destination first. -/
inductive AluName where
  | add | sub | mul | and | or | xor | shl | shr | sar
deriving DecidableEq, Repr

/-- The mnemonics of the conditional transfers. -/
inductive BranchName where
  | jeq | jne | jltu | jlts
deriving DecidableEq, Repr

/-- One assembly statement: an instruction, or one of the two pseudo-instructions (R76, R77). -/
inductive AsmInstr where
  | halt
  | mov (w : Width) (dst src : OperandAddr)
  | ldi (w : Width) (dst : OperandAddr) (imm : AsmValue)
  | alu (op : AluName) (w : Width) (dst a b : OperandAddr)
  | jmp (target : AsmValue)
  | branch (op : BranchName) (w : Width) (a b : OperandAddr) (target : AsmValue)
  | jmpr (w : Width) (src : OperandAddr)
  /-- `CLR.w d`, which is `LDI.w d, 0`. -/
  | clr (w : Width) (dst : OperandAddr)
  /-- `NOP`, which is a `JMP` to the byte after it. -/
  | nop
deriving DecidableEq, Repr

/-- One line: perhaps a label at the address of the next instruction, perhaps a statement (R76). -/
structure AsmLine where
  label : Option Label
  stmt  : Option AsmInstr
deriving DecidableEq, Repr

/-! ### Assembling -/

/-- The encoded length of a statement (R70, R77). -/
def AsmInstr.length : AsmInstr → Nat
  | .halt => 1
  | .mov _ _ _ => 17
  | .ldi w _ _ => 9 + w.bytes
  | .alu _ _ _ _ _ => 25
  | .jmp _ => 9
  | .branch _ _ _ _ _ => 25
  | .jmpr _ _ => 9
  | .clr w _ => 9 + w.bytes
  | .nop => 9

/-- The addresses the labels stand for, the first statement at `pc` (R76). -/
def labelTable : Nat → List AsmLine → List (Label × Nat)
  | _, [] => []
  | pc, l :: ls =>
    (l.label.toList.map fun n => (n, pc)) ++ labelTable (pc + (l.stmt.map AsmInstr.length).getD 0) ls

/-- A number or label as a number; an unknown label has none. -/
def asmValue (table : List (Label × Nat)) : AsmValue → Option Nat
  | .num n => some n
  | .label name => table.lookup name

/-- A target field's value: it must fit 64 bits (R69). -/
def asmTarget (table : List (Label × Nat)) (v : AsmValue) : Option Word :=
  (asmValue table v).bind fun n => if n < 2 ^ 64 then some (BitVec.ofNat 64 n) else none

/-- `LDI.w dst, n`; the assembler refuses a value that needs more than `8w` bits (42_data_movement.md R131). -/
def asmLdi (w : Width) (dst : OperandAddr) (n : Nat) : Option Instr :=
  if n < 2 ^ w.bits then some (.ldi w dst (BitVec.ofNat w.bits n)) else none

/-- The instruction of an ALU mnemonic. -/
def AluName.instr (op : AluName) (w : Width) (dst a b : OperandAddr) : Instr :=
  match op with
  | .add => .add w dst a b
  | .sub => .sub w dst a b
  | .mul => .mul w dst a b
  | .and => .and w dst a b
  | .or => .or w dst a b
  | .xor => .xor w dst a b
  | .shl => .shl w dst a b
  | .shr => .shr w dst a b
  | .sar => .sar w dst a b

/-- The instruction of a conditional-transfer mnemonic. -/
def BranchName.instr (op : BranchName) (w : Width) (a b : OperandAddr) (target : Word) : Instr :=
  match op with
  | .jeq => .jeq w a b target
  | .jne => .jne w a b target
  | .jltu => .jltu w a b target
  | .jlts => .jlts w a b target

/-- The instruction a statement at address `pc` stands for, or none where the assembler refuses it (R77, R78). -/
def asmInstr (table : List (Label × Nat)) (pc : Nat) (i : AsmInstr) : Option Instr :=
  let built : Option Instr := match i with
    | .halt => some .halt
    | .mov w dst src => some (.mov w dst src)
    | .ldi w dst imm => (asmValue table imm).bind (asmLdi w dst)
    | .alu op w dst a b => some (op.instr w dst a b)
    | .jmp target => (asmTarget table target).map .jmp
    | .branch op w a b target => (asmTarget table target).map (op.instr w a b)
    | .jmpr w src => some (.jmpr w src)
    | .clr w dst => asmLdi w dst 0
    | .nop => (asmTarget table (.num (pc + 9))).map .jmp
  built.bind fun i => if i.wellFormed then some i else none

/-- The bytes of the lines from address `pc` on. -/
def assembleFrom (table : List (Label × Nat)) : Nat → List AsmLine → Option (List Byte)
  | _, [] => some []
  | pc, l :: ls =>
    match l.stmt with
    | none => assembleFrom table pc ls
    | some a => do
      let i ← asmInstr table pc a
      let rest ← assembleFrom table (pc + a.length) ls
      some (encode i ++ rest)

/-- A program's bytes, its first statement at address 0 (R76, R78); a label defined twice is refused (log entry 13). -/
def assemble (lines : List AsmLine) : Option (List Byte) :=
  let table := labelTable 0 lines
  if (table.map Prod.fst).Nodup then assembleFrom table 0 lines else none

/-! ### The text form (R76) -/

/-- A blank between tokens. -/
def isBlank (c : Char) : Bool := c == ' ' || c == '\t' || c == '\r'

/-- A text without its leading and trailing blanks. -/
def trimBlanks (cs : List Char) : List Char := (((cs.dropWhile isBlank).reverse).dropWhile isBlank).reverse

/-- The pieces of a text between the separators. -/
def splitAtChar (sep : Char) : List Char → List (List Char)
  | [] => [[]]
  | c :: cs =>
    match splitAtChar sep cs with
    | [] => [[c]]
    | p :: ps => if c == sep then [] :: p :: ps else (c :: p) :: ps

/-- The value of a digit, at most hexadecimal. -/
def digitValue (c : Char) : Option Nat :=
  let n := c.toNat
  if 48 ≤ n ∧ n ≤ 57 then some (n - 48)
  else if 65 ≤ n ∧ n ≤ 70 then some (n - 55)
  else if 97 ≤ n ∧ n ≤ 102 then some (n - 87)
  else none

/-- The value of a digit sequence in a base, after the digits already read. -/
def digitsValue (base : Nat) : Nat → List Char → Option Nat
  | acc, [] => some acc
  | acc, c :: cs =>
    match digitValue c with
    | none => none
    | some d => if d < base then digitsValue base (acc * base + d) cs else none

/-- A number: decimal, or hexadecimal with a `0x` prefix (R76). -/
def parseNumber : List Char → Option Nat
  | [] => none
  | '0' :: 'x' :: c :: cs => digitsValue 16 0 (c :: cs)
  | cs => digitsValue 10 0 cs

/-- A register's number, after its `r`. -/
def parseRegister : List Char → Option Nat
  | 'r' :: cs => parseNumber cs
  | _ => none

/-- The text between an opening and a closing square bracket. -/
def insideBrackets : List Char → Option (List Char)
  | '[' :: cs =>
    match cs.reverse with
    | ']' :: inner => some inner.reverse
    | _ => none
  | _ => none

/-- A descriptor operand in one of the four forms of R76. -/
def parseDescriptor (cs : List Char) : Option OperandAddr :=
  match insideBrackets cs with
  | none => (parseRegister cs).map .reg
  | some inner =>
    match insideBrackets inner with
    | some address => (parseNumber address).map .memInd
    | none =>
      match parseRegister inner with
      | some n => some (.regInd n)
      | none => (parseNumber inner).map .mem

/-- A character of a label's name. -/
def isLabelChar (c : Char) : Bool := c.isAlphanum || c == '_'

/-- A label's name: letters, digits and underscores, a digit not first. -/
def parseLabel (cs : List Char) : Option Label :=
  match cs with
  | [] => none
  | c :: _ => if cs.all isLabelChar && !c.isDigit then some cs else none

/-- A number or a label. -/
def parseValue (cs : List Char) : Option AsmValue :=
  match parseNumber cs with
  | some n => some (.num n)
  | none => (parseLabel cs).map .label

/-- The width a suffix `.w` names. -/
def parseWidth : List Char → Option Width
  | ['1'] => some .w1
  | ['2'] => some .w2
  | ['4'] => some .w4
  | ['8'] => some .w8
  | _ => none

/-- The ALU mnemonics. -/
def aluMnemonics : List (List Char × AluName) :=
  [(['A', 'D', 'D'], .add), (['S', 'U', 'B'], .sub), (['M', 'U', 'L'], .mul), (['A', 'N', 'D'], .and),
   (['O', 'R'], .or), (['X', 'O', 'R'], .xor), (['S', 'H', 'L'], .shl), (['S', 'H', 'R'], .shr),
   (['S', 'A', 'R'], .sar)]

/-- The conditional-transfer mnemonics. -/
def branchMnemonics : List (List Char × BranchName) :=
  [(['J', 'E', 'Q'], .jeq), (['J', 'N', 'E'], .jne), (['J', 'L', 'T', 'U'], .jltu), (['J', 'L', 'T', 'S'], .jlts)]

/-- A statement whose mnemonic carries a width. -/
def parseWide (name : List Char) (w : Width) (operands : List (List Char)) : Option AsmInstr :=
  match aluMnemonics.lookup name, branchMnemonics.lookup name, operands with
  | some op, _, [dst, a, b] => do
    let dst ← parseDescriptor dst
    let a ← parseDescriptor a
    let b ← parseDescriptor b
    some (.alu op w dst a b)
  | none, some op, [a, b, target] => do
    let a ← parseDescriptor a
    let b ← parseDescriptor b
    let target ← parseValue target
    some (.branch op w a b target)
  | none, none, [dst, src] =>
    if name = ['M', 'O', 'V'] then do
      let dst ← parseDescriptor dst
      let src ← parseDescriptor src
      some (.mov w dst src)
    else if name = ['L', 'D', 'I'] then do
      let dst ← parseDescriptor dst
      let imm ← parseValue src
      some (.ldi w dst imm)
    else none
  | none, none, [d] =>
    if name = ['J', 'M', 'P', 'R'] then (parseDescriptor d).map (.jmpr w)
    else if name = ['C', 'L', 'R'] then (parseDescriptor d).map (.clr w)
    else none
  | _, _, _ => none

/-- A statement: `MNEMONIC[.w] operand, operand, ...` (R76). The suffix is written for every mnemonic with a width and omitted
for HALT and JMP, and for NOP, which is a JMP. -/
def parseStatement (cs : List Char) : Option AsmInstr :=
  let word := cs.takeWhile fun c => !isBlank c
  let rest := trimBlanks (cs.drop word.length)
  let operands := if rest.isEmpty then [] else (splitAtChar ',' rest).map trimBlanks
  match splitAtChar '.' word, operands with
  | [name, suffix], _ => (parseWidth suffix).bind fun w => parseWide name w operands
  | [name], [] =>
    if name = ['H', 'A', 'L', 'T'] then some .halt else if name = ['N', 'O', 'P'] then some .nop else none
  | [name], [target] => if name = ['J', 'M', 'P'] then (parseValue target).map .jmp else none
  | _, _ => none

/-- A statement, or nothing on an empty text. -/
def parseOptionalStatement (cs : List Char) : Option (Option AsmInstr) :=
  if cs.isEmpty then some none else (parseStatement cs).map some

/-- One line: a comment runs from `;`, a label ends in `:` and may stand before a statement (R76). DESIGN CHOICE (log entry 13):
a line carries at most one label, and one with two (`a: b: HALT`) is refused; a line may be empty or hold a label alone, which
then names the address of the next statement. -/
def parseLine (cs : List Char) : Option AsmLine :=
  let code := trimBlanks (cs.takeWhile fun c => c != ';')
  match splitAtChar ':' code with
  | [stmt] => (parseOptionalStatement (trimBlanks stmt)).map fun s => ⟨none, s⟩
  | [name, stmt] => do
    let l ← parseLabel (trimBlanks name)
    let s ← parseOptionalStatement (trimBlanks stmt)
    some ⟨some l, s⟩
  | _ => none

/-- All lines, or none if one of them cannot be read. -/
def parseLines : List (List Char) → Option (List AsmLine)
  | [] => some []
  | l :: ls => do
    let a ← parseLine l
    let rest ← parseLines ls
    some (a :: rest)

/-- The bytes of a program text (R76 to R78), or none where the assembler refuses it. -/
def assembleText (text : List Char) : Option (List Byte) := (parseLines (splitAtChar '\n' text)).bind assemble

end Sys2Proof.Machine
end

