-- ==== Sys2Proof/Machine/Generic.lean ====
section
/-! DEFINITION. The generic layer (00_scope.md R2(a), R12; 30_encoding.md R60 to R63): what a decoder is and owes, the CORE over
any instruction catalog, and VMR-REF as the one catalog the spec fixes (log entry 7). -/

namespace Sys2Proof.Machine

/-! ### Decoders -/

/-- An operand of a decoded instruction: a descriptor or an immediate value (R60). -/
inductive DecodedOperand where
  | descriptor (d : OperandAddr)
  | immediate (value : Nat)
deriving DecidableEq, Repr

/-- A decoded instruction `(tag, operands, len)` (R60). -/
structure Decoded (Tag : Type) where
  tag      : Tag
  operands : List DecodedOperand
  len      : Nat
deriving DecidableEq, Repr

/-- A decoder as the reads it makes: the only way it learns anything is the memory bank's bounds-checked port, at offsets from
the pc (R61), so it can look at no register and at no other state (R60). -/
inductive DecodeProgram (Tag : Type) where
  /-- Read the byte at `pc + offset`. -/
  | readByte (offset : Nat) (next : Byte → DecodeProgram Tag)
  /-- Read the `n` bytes from the pc, checked as one range (41_fetch_execute.md R111). -/
  | readBytes (n : Nat) (next : List Byte → DecodeProgram Tag)
  /-- The bytes spell this instruction. -/
  | spells (d : Decoded Tag)
  /-- The bytes spell no tag (R62). -/
  | noTag

/-- The `n` bytes from `a` up through the port of a bank of `size` bytes: the bytes, or OutOfBounds (R61; 20_memory.md R41). -/
def bankBytes (size : Nat) (mem : Memory) (a n : Nat) : Except Fault (List Byte) :=
  if a + n > size then .error (.outOfBounds a n) else .ok (mem.readBytes a n)

/-- What a decoder answers at a pc of a bank. InvalidOpcode names the pc and the opcode byte (60_exceptions.md R180), and that
byte too comes through the port: where there is none, the answer is OutOfBounds. -/
def DecodeProgram.run {Tag : Type} (size : Nat) (mem : Memory) (pc : Word) : DecodeProgram Tag → Except Fault (Decoded Tag)
  | .readByte offset next => do
    let _ ← bankBytes size mem (pc.toNat + offset) 1
    (next (mem.read (pc.toNat + offset))).run size mem pc
  | .readBytes n next => do
    let bytes ← bankBytes size mem pc.toNat n
    (next bytes).run size mem pc
  | .spells d => .ok d
  | .noTag => do
    let _ ← bankBytes size mem pc.toNat 1
    .error (.invalidOpcode pc (mem.read pc.toNat))

/-- On every path that spells an instruction, the length is at least one byte (R60) and every read, those before included
(`m` bytes from the pc so far), lies in `[pc, pc + len)` (R61). -/
def DecodeProgram.readsOwnBytes {Tag : Type} : DecodeProgram Tag → Nat → Prop
  | .readByte offset next, m => ∀ b, (next b).readsOwnBytes (max m (offset + 1))
  | .readBytes n next, m => ∀ bytes, bytes.length = n → (next bytes).readsOwnBytes (max m n)
  | .spells d, m => 1 ≤ d.len ∧ m ≤ d.len
  | .noTag, _ => True

/-! ### Catalogs -/

/-- An instruction catalog: its tags, all of them listed in `tags` (R60), its decoder, and the effect of each tag, a function of
the tag, the operands and the state (R63, R113). -/
structure Catalog where
  Tag     : Type
  tags    : List Tag
  decoder : DecodeProgram Tag
  effect  : Tag → List DecodedOperand → State → Except Fault Effect

/-- The catalog's decoder at a pc: a function of the bank's contents and the pc alone (R60). -/
def Catalog.decode (C : Catalog) (size : Nat) (mem : Memory) (pc : Word) : Except Fault (Decoded C.Tag) :=
  C.decoder.run size mem pc

/-- One step of the CORE over a catalog (R110 to R115). -/
def catalogStep (C : Catalog) (s : State) : Host.Outcome State Fault Refusal :=
  match s.status with
  | .running =>
    match C.decode s.memSize s.mem s.pc with
    | .error f => .next (takeFault f s)
    | .ok d => finish s (C.effect d.tag d.operands s)
  | .halted => .next s
  | .faulted => .next s

/-- What a catalog owes the CORE (R60 to R63). -/
structure DecoderContract (C : Catalog) : Prop where
  /-- The tag set is finite: the list holds every tag (R60). -/
  all_tags : ∀ t, t ∈ C.tags
  /-- The decoder reads only the bytes of the instruction it decodes, at least one (R60, R61). -/
  own_bytes : C.decoder.readsOwnBytes 0
  /-- A decoded instruction lies in the bank whole (R61; 41_fetch_execute.md R111). -/
  in_bank : ∀ size mem pc d, C.decode size mem pc = .ok d → pc.toNat + d.len ≤ size
  /-- There is a halt tag: executing it sets the status to Halted (R63). -/
  halts : ∃ t, ∀ operands s, ∃ u, finish s (C.effect t operands s) = .next u ∧ u.status = .halted

/-! ### VMR-REF -/

/-- The effect of each VMR-REF instruction (R113). -/
def instrEffect (i : Instr) (s : State) : Except Fault Effect :=
  match i with
  | .halt => effectHalt s
  | .mov w dst src => effectMov w dst src s
  | .ldi w dst imm => effectLdi w dst imm s
  | .add w dst a b => effectAdd w dst a b s
  | .sub w dst a b => effectSub w dst a b s
  | .mul w dst a b => effectMul w dst a b s
  | .and w dst a b => effectAnd w dst a b s
  | .or w dst a b => effectOr w dst a b s
  | .xor w dst a b => effectXor w dst a b s
  | .shl w dst a b => effectShl w dst a b s
  | .shr w dst a b => effectShr w dst a b s
  | .sar w dst a b => effectSar w dst a b s
  | .jmp target => effectJmp target s
  | .jeq w a b target => effectJeq w a b target s
  | .jne w a b target => effectJne w a b target s
  | .jltu w a b target => effectJltu w a b target s
  | .jlts w a b target => effectJlts w a b target s
  | .jmpr w src => effectJmpr w src s

/-- The descriptor at a place in an operand list. VMR-REF's decoder puts one wherever it is asked for; elsewhere the answer means
nothing (log entry 7). -/
def descriptorAt (operands : List DecodedOperand) (k : Nat) : OperandAddr :=
  match operands[k]? with
  | some (.descriptor d) => d
  | some (.immediate _) | none => .mem 0

/-- The immediate at a place in an operand list, on the same terms. -/
def immediateAt (operands : List DecodedOperand) (k : Nat) : Nat :=
  match operands[k]? with
  | some (.immediate v) => v
  | some (.descriptor _) | none => 0

/-- An instruction's operands in field order (R70): descriptors, LDI's immediate, a transfer's target. -/
def decodedOperands (i : Instr) : List DecodedOperand :=
  i.operands.map .descriptor ++
    match i with
    | .ldi _ _ imm => [.immediate imm.toNat]
    | .jmp target | .jeq _ _ _ target | .jne _ _ _ target | .jltu _ _ _ target | .jlts _ _ _ target =>
      [.immediate target.toNat]
    | .halt | .mov _ _ _ | .add _ _ _ _ | .sub _ _ _ _ | .mul _ _ _ _ | .and _ _ _ _ | .or _ _ _ _ | .xor _ _ _ _
    | .shl _ _ _ _ | .shr _ _ _ _ | .sar _ _ _ _ | .jmpr _ _ => []

/-- The instruction a VMR-REF tag and its operands are. -/
def instrOf (o : Opcode) (operands : List DecodedOperand) : Instr :=
  let d := descriptorAt operands
  let target := BitVec.ofNat 64 (immediateAt operands 2)
  match o with
  | .halt => .halt
  | .mov w => .mov w (d 0) (d 1)
  | .ldi w => .ldi w (d 0) (BitVec.ofNat w.bits (immediateAt operands 1))
  | .add w => .add w (d 0) (d 1) (d 2)
  | .sub w => .sub w (d 0) (d 1) (d 2)
  | .mul w => .mul w (d 0) (d 1) (d 2)
  | .and w => .and w (d 0) (d 1) (d 2)
  | .or w => .or w (d 0) (d 1) (d 2)
  | .xor w => .xor w (d 0) (d 1) (d 2)
  | .shl w => .shl w (d 0) (d 1) (d 2)
  | .shr w => .shr w (d 0) (d 1) (d 2)
  | .sar w => .sar w (d 0) (d 1) (d 2)
  | .jmp => .jmp (BitVec.ofNat 64 (immediateAt operands 0))
  | .jeq w => .jeq w (d 0) (d 1) target
  | .jne w => .jne w (d 0) (d 1) target
  | .jltu w => .jltu w (d 0) (d 1) target
  | .jlts w => .jlts w (d 0) (d 1) target
  | .jmpr w => .jmpr w (d 0)

/-- VMR-REF's tags: the 66 legal opcode bytes' identities (R73). -/
def vmrTags : List Opcode :=
  [.halt, .jmp] ++ [Width.w1, .w2, .w4, .w8].flatMap fun w =>
    [.mov w, .ldi w, .add w, .sub w, .mul w, .and w, .or w, .xor w, .shl w, .shr w, .sar w,
     .jeq w, .jne w, .jltu w, .jlts w, .jmpr w]

/-- VMR-REF's decoder: the opcode byte, then all the bytes of its length (R71, R72; 41_fetch_execute.md R111). -/
def vmrDecoder : DecodeProgram Opcode :=
  .readByte 0 fun b =>
    match opcodeOfByte b with
    | none => .noTag
    | some o => .readBytes o.length fun bytes => .spells ⟨o, decodedOperands (o.build bytes), o.length⟩

/-- VMR-REF as a catalog (R2(b), R12). -/
def vmrRef : Catalog where
  Tag     := Opcode
  tags    := vmrTags
  decoder := vmrDecoder
  effect  := fun o operands s => instrEffect (instrOf o operands) s

end Sys2Proof.Machine
end

