-- ==== Sys2Proof/Machine/Inspect.lean ====
section
/-! DEFINITION. Post-run inspection and pass/fail (70_reset_and_hazards.md R210, R211): what the host may ask of a final state. -/

namespace Sys2Proof.Machine

/-- A check `(address A, width w, expected E)` (R210). -/
structure Check where
  address  : Nat
  width    : Width
  expected : Int
deriving DecidableEq, Repr

/-- The `w`-byte pattern of an expected value: `E` itself if `0 <= E < 2^(8w)`, `E + 2^(8w)` if `-2^(8w-1) <= E < 0`, else none
(R210). -/
def expectedPattern (w : Width) (e : Int) : Option (BitVec w.bits) :=
  if 0 ≤ e ∧ e < 2 ^ w.bits then some (BitVec.ofNat w.bits e.toNat)
  else if -(2 ^ (w.bits - 1)) ≤ e ∧ e < 0 then some (BitVec.ofNat w.bits (e + 2 ^ w.bits).toNat)
  else none

/-- What a check answers. -/
inductive CheckResult where
  /-- The bytes equal the expected pattern. -/
  | pass
  /-- They differ, or the check reaches past the bank. -/
  | fail
  /-- The expected value has no pattern of that width. -/
  | refused
deriving DecidableEq, Repr

/-- One check of a final memory bank (R210). An out-of-bank check fails and faults nothing. -/
def runCheck (s : State) (c : Check) : CheckResult :=
  match expectedPattern c.width c.expected with
  | none => .refused
  | some p =>
    match memRead s c.address c.width with
    | .error _ => .fail
    | .ok v => if v = p then .pass else .fail

/-- Inspection, defined on a Halted final state only (R210). -/
def inspect (s : State) (c : Check) : Option CheckResult :=
  match s.status with
  | .halted => some (runCheck s c)
  | .running => none
  | .faulted => none

/-- Pass and fail of a run (R211). -/
inductive Verdict where
  /-- Halted, and every check compares equal. -/
  | pass
  /-- Halted, and some check fails. -/
  | fail
  /-- Faulted: the run fails with no check made, and its fault is reported. -/
  | faulted (report : Option FaultRecord)
  /-- Halted, no check fails and some check is refused: the spec names no verdict (log entry 10). -/
  | noVerdict
  /-- The run has not ended. -/
  | notEnded
deriving DecidableEq, Repr

/-- The verdict on a state and a list of checks (R211). -/
def runVerdict (s : State) (checks : List Check) : Verdict :=
  match s.status with
  | .running => .notEnded
  | .faulted => .faulted s.fault
  | .halted =>
    let results := checks.map (runCheck s)
    if .fail ∈ results then .fail else if .refused ∈ results then .noVerdict else .pass

end Sys2Proof.Machine
end

