-- ==== Sys2Proof/Machine/Launch.lean ====
section
/-! DEFINITION. Construction and program load (70_reset_and_hazards.md R200 to R204): how a run starts from its launch
parameters. `State.reset` is the launch of an empty program at the sizes and register values `Config` names. -/

namespace Sys2Proof.Machine

/-- The bank after the loader: all zero at construction, then the program's bytes from address 0 (R203). -/
def loadProgram (program : List Byte) : Memory := Memory.writeBytes [] 0 program

/-- A run's start (R200, R204), or the refusal of R201 (the configuration) or R202 (the program's length). Where several
refusals apply the order is the model's (log entry 10). -/
def launch (memExp regCount : Nat) (regInit : List Word) (program : List Byte) : Host.Outcome State Fault Refusal :=
  if h : memExp < 64 then
    if regInit.length ≠ regCount then .refused (.regInitLength regCount regInit.length)
    else if program.length > 2 ^ memExp then .refused (.programTooLong program.length (2 ^ memExp))
    else .next
      { memExp := ⟨memExp, h⟩, regs := regInit, mem := loadProgram program, pc := 0, status := .running, fault := none }
  else .refused (.memExpTooLarge memExp)

end Sys2Proof.Machine
end

