-- ==== Sys2Proof/Safety.lean ====
section
/-! DEFINITION. The terms claims are stated in: where an operand lies and what it holds by the rules alone (40_operand_addressing.md
R91 to R97), which fault an instruction meets first (60_exceptions.md R185), the invariants of the state, and runs
(41_fetch_execute.md R117, 70_reset_and_hazards.md R206). Written from the rules' formulas, apart from the machine's own
operations, so that a claim compares the two. -/

namespace Sys2Proof

/-! ### Instructions as syntax -/

/-- The source operands in field order, with the width they are read at (R100). -/
def Instr.sources : Instr → List (OperandAddr × Width)
  | .halt => []
  | .mov w _ src => [(src, w)]
  | .ldi _ _ _ => []
  | .add w _ a b | .sub w _ a b | .mul w _ a b | .and w _ a b | .or w _ a b | .xor w _ a b
  | .shl w _ a b | .shr w _ a b | .sar w _ a b => [(a, w), (b, w)]
  | .jmp _ => []
  | .jeq w a b _ | .jne w a b _ | .jltu w a b _ | .jlts w a b _ => [(a, w), (b, w)]
  | .jmpr w src => [(src, w)]

/-- The destination operand, with the width it is written at (R100). -/
def Instr.destination : Instr → Option (OperandAddr × Width)
  | .mov w dst _ | .ldi w dst _ => some (dst, w)
  | .add w dst _ _ | .sub w dst _ _ | .mul w dst _ _ | .and w dst _ _ | .or w dst _ _ | .xor w dst _ _
  | .shl w dst _ _ | .shr w dst _ _ | .sar w dst _ _ => some (dst, w)
  | .halt | .jmp _ | .jeq _ _ _ _ | .jne _ _ _ _ | .jltu _ _ _ _ | .jlts _ _ _ _ | .jmpr _ _ => none

/-- The control transfers (44_control_transfer.md). -/
def Instr.isTransfer : Instr → Bool
  | .jmp _ | .jeq _ _ _ _ | .jne _ _ _ _ | .jltu _ _ _ _ | .jlts _ _ _ _ | .jmpr _ _ => true
  | .halt | .mov _ _ _ | .ldi _ _ _ | .add _ _ _ _ | .sub _ _ _ _ | .mul _ _ _ _ | .and _ _ _ _ | .or _ _ _ _
  | .xor _ _ _ _ | .shl _ _ _ _ | .shr _ _ _ _ | .sar _ _ _ _ => false

/-- The instruction names register `k` in a descriptor, as an operand or as a pointer. -/
def Instr.names (i : Instr) (k : Nat) : Prop := ∃ d ∈ i.operands, d.isRegister = true ∧ d.rawIndex = k

end Sys2Proof

namespace Sys2Proof.Machine

/-! ### Operands by the rules -/

/-- `sint_N(v)`, the two's-complement reading of an `N`-bit pattern (00_scope.md R15). -/
def sint (n v : Nat) : Int := if v.testBit (n - 1) then (v : Int) - 2 ^ n else (v : Int)

/-- The 8-byte little-endian pointer at an address (R93). -/
def pointerAt (s : State) (a : Nat) : Nat := leValue (s.mem.readBytes a 8)

/-- The final location of a descriptor (R91), whatever the checks say. -/
def locationOf (s : State) (d : OperandAddr) : Location :=
  match d.isRegister, d.isIndirect with
  | false, false => .mem d.rawIndex
  | false, true => .mem (pointerAt s d.rawIndex)
  | true, false => .reg d.rawIndex
  | true, true => .mem (s.regs.getD d.rawIndex 0).toNat

/-- The bounds check of an access (20_memory.md R43). -/
def boundsFault (s : State) (a n : Nat) : Option Fault :=
  if a + n ≤ s.memSize then none else some (.outOfBounds a n)

/-- The first fault an access of width `w` through a descriptor meets (R92 to R97, R100), the same for a read and a write
(R98); none if it succeeds. -/
def accessFault (s : State) (d : OperandAddr) (w : Width) : Option Fault :=
  match d.isRegister, d.isIndirect with
  | false, false => boundsFault s d.rawIndex w.bytes
  | false, true => (boundsFault s d.rawIndex 8).or (boundsFault s (pointerAt s d.rawIndex) w.bytes)
  | true, false => if d.rawIndex < s.regCount then none else some (.invalidRegister d.rawIndex)
  | true, true =>
    if d.rawIndex < s.regCount then boundsFault s (s.regs.getD d.rawIndex 0).toNat w.bytes
    else some (.invalidRegister d.rawIndex)

/-- The `w`-byte value at a location (R96; 10_state.md R27; 20_memory.md R44). -/
def valueAt (s : State) (loc : Location) (w : Width) : BitVec w.bits :=
  match loc with
  | .reg i => BitVec.ofNat w.bits ((s.regs.getD i 0).toNat % 2 ^ w.bits)
  | .mem a => BitVec.ofNat w.bits (leValue (s.mem.readBytes a w.bytes))

/-- The value an operand holds. -/
def operandValue (s : State) (d : OperandAddr) (w : Width) : BitVec w.bits := valueAt s (locationOf s d) w

/-- The state with a `w`-byte value put at a location (R97; 10_state.md R27; 20_memory.md R45). -/
def placedAt (s : State) (loc : Location) (w : Width) (v : BitVec w.bits) : State :=
  match loc with
  | .reg i => { s with regs := s.regs.set i (BitVec.ofNat 64 v.toNat) }
  | .mem a => { s with mem := s.mem.writeBytes a (leBytes w.bytes v.toNat) }

/-- The state an instruction leaves that writes `v` to `dst` and advances to `nextPc`. -/
def written (s : State) (dst : OperandAddr) (w : Width) (v : BitVec w.bits) (nextPc : Word) : State :=
  { placedAt s (locationOf s dst) w v with pc := nextPc }

/-! ### Instructions by the rules -/

/-- The first fault the instruction's operands meet: sources in field order, then the destination (R100, R185). -/
def operandFault (s : State) (i : Instr) : Option Fault :=
  (i.sources ++ i.destination.toList).findSome? fun p => accessFault s p.1 p.2

/-- The location the instruction stores to, if it stores. -/
def storeLocation (s : State) (i : Instr) : Option (Location × Width) :=
  i.destination.map fun p => (locationOf s p.1, p.2)

/-- Address `a` lies outside the bytes the instruction stores to. -/
def outsideStore (s : State) (i : Instr) (a : Nat) : Prop :=
  ∀ b w, storeLocation s i = some (.mem b, w) → a < b ∨ b + w.bytes ≤ a

/-- Register `k` is not the instruction's destination register. -/
def notDestinationReg (s : State) (i : Instr) (k : Nat) : Prop :=
  ∀ w, storeLocation s i ≠ some (.reg k, w)

/-- What an instruction may change of the two files (R101, R113): only its destination register, only the bytes it stores to,
and never the two sizes (10_state.md R24, R35, R38). -/
def filesFrame (s t : State) (i : Instr) : Prop :=
  t.memExp = s.memExp ∧ t.regCount = s.regCount ∧
  (∀ k, notDestinationReg s i k → t.regs[k]? = s.regs[k]?) ∧
  (∀ a, outsideStore s i a → t.mem.read a = s.mem.read a)

/-- What an instruction other than HALT may change of the status and the fault record: nothing, or they take a fault, and then
nothing else changed (R115). -/
def statusFrame (s t : State) : Prop :=
  (t.status = s.status ∧ t.fault = s.fault) ∨ (∃ f, t = takeFault f s)

/-! ### The rule of an instruction

Each says: the opcode byte, the fields and the length; which operand's fault is taken, in the rules' order; and, when no operand
faults, the next state. -/

/-- The rule of `OP.w dst, a, b` with operation number `op` and result function `f` on natural numbers, which is given the
width in bits (43_arithmetic_logic.md R140). -/
def AluRule (mk : Width → OperandAddr → OperandAddr → OperandAddr → Instr) (op : Nat) (f : Nat → Nat → Nat → Nat) : Prop :=
  ∀ (w : Width) (dst a b : OperandAddr) (s : State),
    encode (mk w dst a b) = BitVec.ofNat 8 (op * 4 + codeOfWidth w) ::
      (descriptorBytes dst ++ descriptorBytes a ++ descriptorBytes b) ∧
    (encode (mk w dst a b)).length = 25 ∧
    (∀ x, accessFault s a w = some x → exec (mk w dst a b) s = .next (takeFault x s)) ∧
    (∀ x, accessFault s a w = none → accessFault s b w = some x → exec (mk w dst a b) s = .next (takeFault x s)) ∧
    (∀ x, accessFault s a w = none → accessFault s b w = none → accessFault s dst w = some x →
      exec (mk w dst a b) s = .next (takeFault x s)) ∧
    (accessFault s a w = none → accessFault s b w = none → accessFault s dst w = none →
      f w.bits (operandValue s a w).toNat (operandValue s b w).toNat < 2 ^ w.bits ∧
      exec (mk w dst a b) s = .next (written s dst w
        (BitVec.ofNat w.bits (f w.bits (operandValue s a w).toNat (operandValue s b w).toNat)) (s.pc + 25)))

/-- The rule of `Jcc.w a, b, target` with operation number `op` and condition `taken` on natural numbers, which is given the
width in bits (44_control_transfer.md R163). -/
def BranchRule (mk : Width → OperandAddr → OperandAddr → Word → Instr) (op : Nat) (taken : Nat → Nat → Nat → Prop) : Prop :=
  ∀ (w : Width) (a b : OperandAddr) (target : Word) (s : State),
    encode (mk w a b target) = BitVec.ofNat 8 (op * 4 + codeOfWidth w) ::
      (descriptorBytes a ++ descriptorBytes b ++ wordBytes target) ∧
    (encode (mk w a b target)).length = 25 ∧
    (∀ x, accessFault s a w = some x → exec (mk w a b target) s = .next (takeFault x s)) ∧
    (∀ x, accessFault s a w = none → accessFault s b w = some x → exec (mk w a b target) s = .next (takeFault x s)) ∧
    (accessFault s a w = none → accessFault s b w = none →
      (taken w.bits (operandValue s a w).toNat (operandValue s b w).toNat →
        exec (mk w a b target) s = .next { s with pc := target }) ∧
      (¬ taken w.bits (operandValue s a w).toNat (operandValue s b w).toNat →
        exec (mk w a b target) s = .next { s with pc := s.pc + 25 }))

/-! ### Invariants -/

/-- The bank's list is canonical and holds no address at or past `MEM_SIZE` (10_state.md R35). -/
abbrev bankWf (s : State) : Prop := s.mem.wf ∧ ∀ c ∈ s.mem, c.1 < s.memSize

/-- The widths an OutOfBounds can record: Typed Cell widths and instruction lengths (60_exceptions.md R181). -/
def recordedWidths : List Nat := [1, 2, 4, 8, 9, 10, 11, 13, 17, 25]

/-- What a fault cause asserts about the state it is raised in (R181, R182, R183). -/
def causeHolds (s : State) : Fault → Prop
  | .outOfBounds a n => a + n > s.memSize ∧ n ∈ recordedWidths
  | .invalidRegister i => s.regCount ≤ i ∧ i < 2 ^ 62
  | .invalidOpcode p b =>
    p = s.pc ∧ s.pc.toNat < s.memSize ∧ b = s.mem.read s.pc.toNat ∧ opcodeOfByte b = none

/-- The fault record agrees with the status (10_state.md R33) and tells the truth about the state (R181 to R183, R186). -/
def recordWf (s : State) : Prop :=
  (s.status = .faulted ↔ s.fault.isSome = true) ∧ ∀ r, s.fault = some r → r.faultPc = s.pc ∧ causeHolds s r.cause

/-- The invariant of every step. -/
def StateInv (s : State) : Prop := bankWf s ∧ recordWf s

/-! ### Runs -/

/-- The state after `k` steps (R117). -/
def runFor : Nat → State → State
  | 0, s => s
  | k + 1, s =>
    match step s with
    | .next t => runFor k t
    | .fault _ => s
    | .refused _ => s

/-- The run from `s` ends in the final state `t` (70_reset_and_hazards.md R206). -/
def EndsIn (s t : State) : Prop := ∃ k, runFor k s = t ∧ t.status ≠ .running

/-- The run from `s` never ends (R117). -/
def RunsForever (s : State) : Prop := ∀ k, (runFor k s).status = .running

/-- A safe run: it never faults. -/
def SafeRun (s : State) : Prop := ∀ k, (runFor k s).status ≠ .faulted

end Sys2Proof.Machine
end

