-- ==== Sys2Proof/Certificates/Slice0/Obligations.lean ====
section
/-! DEFINITION. The statements for the provers. They hold for every bank size, register count and register content, because the
state carries them; a statement about `State.reset` alone says so. -/

open Sys2Proof Sys2Proof.Machine

/-! ### Encoding -/

/-- Decoding the encoding of a well-formed instruction gives it back, with the bytes after it untouched (30_encoding.md R67,
R70, R72, R78): no bit of an encoding is dropped, at any operand value. -/
def Obligations.DecodeOfEncodeIsTheInstruction : Prop :=
  ∀ (i : Instr) (rest : List Byte), i.wellFormed = true → decode (encode i ++ rest) = .ok (i, rest)

/-- The other direction: whatever decodes is well formed, and its bytes are exactly the encoding of what was decoded, so each
instruction has one encoding (R65 to R72, R75). -/
def Obligations.EncodeOfDecodeIsTheBytes : Prop :=
  ∀ (bytes rest : List Byte) (i : Instr), decode bytes = .ok (i, rest) → i.wellFormed = true ∧ encode i ++ rest = bytes

/-- The opcode map, row by row, with each row's length; every other byte is none (R73). -/
def Obligations.OpcodeMapRows : Prop :=
  (∀ w : Width, ∀ wc, wc = codeOfWidth w →
    opcodeOfByte (BitVec.ofNat 8 (0x08 + wc)) = some (.mov w) ∧ (Opcode.mov w).length = 17 ∧
    opcodeOfByte (BitVec.ofNat 8 (0x0C + wc)) = some (.ldi w) ∧ (Opcode.ldi w).length = 9 + w.bytes ∧
    opcodeOfByte (BitVec.ofNat 8 (0x10 + wc)) = some (.add w) ∧ (Opcode.add w).length = 25 ∧
    opcodeOfByte (BitVec.ofNat 8 (0x14 + wc)) = some (.sub w) ∧ (Opcode.sub w).length = 25 ∧
    opcodeOfByte (BitVec.ofNat 8 (0x18 + wc)) = some (.mul w) ∧ (Opcode.mul w).length = 25 ∧
    opcodeOfByte (BitVec.ofNat 8 (0x1C + wc)) = some (.and w) ∧ (Opcode.and w).length = 25 ∧
    opcodeOfByte (BitVec.ofNat 8 (0x20 + wc)) = some (.or w) ∧ (Opcode.or w).length = 25 ∧
    opcodeOfByte (BitVec.ofNat 8 (0x24 + wc)) = some (.xor w) ∧ (Opcode.xor w).length = 25 ∧
    opcodeOfByte (BitVec.ofNat 8 (0x28 + wc)) = some (.shl w) ∧ (Opcode.shl w).length = 25 ∧
    opcodeOfByte (BitVec.ofNat 8 (0x2C + wc)) = some (.shr w) ∧ (Opcode.shr w).length = 25 ∧
    opcodeOfByte (BitVec.ofNat 8 (0x30 + wc)) = some (.sar w) ∧ (Opcode.sar w).length = 25 ∧
    opcodeOfByte (BitVec.ofNat 8 (0x38 + wc)) = some (.jeq w) ∧ (Opcode.jeq w).length = 25 ∧
    opcodeOfByte (BitVec.ofNat 8 (0x3C + wc)) = some (.jne w) ∧ (Opcode.jne w).length = 25 ∧
    opcodeOfByte (BitVec.ofNat 8 (0x40 + wc)) = some (.jltu w) ∧ (Opcode.jltu w).length = 25 ∧
    opcodeOfByte (BitVec.ofNat 8 (0x44 + wc)) = some (.jlts w) ∧ (Opcode.jlts w).length = 25 ∧
    opcodeOfByte (BitVec.ofNat 8 (0x48 + wc)) = some (.jmpr w) ∧ (Opcode.jmpr w).length = 9) ∧
  opcodeOfByte 0x04 = some .halt ∧ Opcode.halt.length = 1 ∧
  opcodeOfByte 0x34 = some .jmp ∧ Opcode.jmp.length = 9 ∧
  ∀ b : Byte, b.toNat ≤ 0x03 ∨ (0x05 ≤ b.toNat ∧ b.toNat ≤ 0x07) ∨ (0x35 ≤ b.toNat ∧ b.toNat ≤ 0x37) ∨ 0x4C ≤ b.toNat →
    opcodeOfByte b = none

/-- The seven formats (R70, R72): the opcode byte and the fields in their places give the instruction, with each descriptor field
unpacked, the immediate and the target as they stand, and the bytes after the last field untouched. -/
def Obligations.FormatLayout : Prop :=
  ∀ (w : Width) (D0 D1 D2 : Word) (imm : BitVec w.bits) (rest : List Byte),
    let opcode (op : Nat) : Byte := BitVec.ofNat 8 (op * 4 + codeOfWidth w)
    let d0 := unpackDescriptor D0
    let d1 := unpackDescriptor D1
    let d2 := unpackDescriptor D2
    let one := wordBytes D0 ++ rest
    let two := wordBytes D0 ++ wordBytes D1 ++ rest
    let three := wordBytes D0 ++ wordBytes D1 ++ wordBytes D2 ++ rest
    decode (0x04 :: rest) = .ok (.halt, rest) ∧
    decode (opcode 0x02 :: two) = .ok (.mov w d0 d1, rest) ∧
    decode (opcode 0x03 :: (wordBytes D0 ++ leBytes w.bytes imm.toNat ++ rest)) = .ok (.ldi w d0 imm, rest) ∧
    decode (opcode 0x04 :: three) = .ok (.add w d0 d1 d2, rest) ∧
    decode (opcode 0x05 :: three) = .ok (.sub w d0 d1 d2, rest) ∧
    decode (opcode 0x06 :: three) = .ok (.mul w d0 d1 d2, rest) ∧
    decode (opcode 0x07 :: three) = .ok (.and w d0 d1 d2, rest) ∧
    decode (opcode 0x08 :: three) = .ok (.or w d0 d1 d2, rest) ∧
    decode (opcode 0x09 :: three) = .ok (.xor w d0 d1 d2, rest) ∧
    decode (opcode 0x0A :: three) = .ok (.shl w d0 d1 d2, rest) ∧
    decode (opcode 0x0B :: three) = .ok (.shr w d0 d1 d2, rest) ∧
    decode (opcode 0x0C :: three) = .ok (.sar w d0 d1 d2, rest) ∧
    decode (0x34 :: one) = .ok (.jmp D0, rest) ∧
    decode (opcode 0x0E :: three) = .ok (.jeq w d0 d1 D2, rest) ∧
    decode (opcode 0x0F :: three) = .ok (.jne w d0 d1 D2, rest) ∧
    decode (opcode 0x10 :: three) = .ok (.jltu w d0 d1 D2, rest) ∧
    decode (opcode 0x11 :: three) = .ok (.jlts w d0 d1 D2, rest) ∧
    decode (opcode 0x12 :: one) = .ok (.jmpr w d0, rest)

/-- Words of the spec's own examples decode to the instructions the spec gives for them (42_data_movement.md R130, R131;
43_arithmetic_logic.md R141; 44_control_transfer.md R161 to R163). -/
def Obligations.SpecExampleWordsDecode : Prop :=
  decode [0x0B, 0x00, 0x03, 0, 0, 0, 0, 0, 0, 0x01, 0, 0, 0, 0, 0, 0, 0x80] = .ok (.mov .w8 (.mem 0x300) (.reg 1), []) ∧
  decode [0x0E, 0x80, 0x01, 0, 0, 0, 0, 0, 0, 0x44, 0x33, 0x22, 0x11] = .ok (.ldi .w4 (.mem 0x180) 0x11223344, []) ∧
  decode [0x13, 0x00, 0x02, 0, 0, 0, 0, 0, 0, 0, 0, 0, 0, 0, 0, 0, 0x80, 0x01, 0, 0, 0, 0, 0, 0, 0x80] =
    .ok (.add .w8 (.mem 0x200) (.reg 0) (.reg 1), []) ∧
  decode [0x34, 0x44, 0, 0, 0, 0, 0, 0, 0] = .ok (.jmp 68, []) ∧
  decode [0x4B, 0x03, 0, 0, 0, 0, 0, 0, 0x80] = .ok (.jmpr .w8 (.reg 3), []) ∧
  decode [0x3B, 0, 0, 0, 0, 0, 0, 0, 0x80, 0x03, 0, 0, 0, 0, 0, 0, 0x80, 0xC8, 0, 0, 0, 0, 0, 0, 0] =
    .ok (.jeq .w8 (.reg 0) (.reg 3) 200, [])

/-- The descriptor word (R67): bit 63 is is_register, bit 62 is is_indirect, the low 62 bits are raw_index; all `2^64` words
unpack to a well-formed descriptor and pack back to themselves. -/
def Obligations.EveryDescriptorWordUnpacksAndPacksBack : Prop :=
  ∀ D : Word,
    (unpackDescriptor D).rawIndex = D.toNat % 2 ^ 62 ∧
    ((unpackDescriptor D).isRegister = true ↔ 2 ^ 63 ≤ D.toNat) ∧
    ((unpackDescriptor D).isIndirect = true ↔ D.toNat / 2 ^ 62 % 2 = 1) ∧
    (unpackDescriptor D).wellFormed = true ∧ packDescriptor (unpackDescriptor D) = D

/-- An illegal opcode byte faults InvalidOpcode with the pc and the byte (R74), and nothing else changes. -/
def Obligations.IllegalOpcodeByteFaults : Prop :=
  ∀ (s : State) (b : Byte), s.status = .running → s.pc.toNat < s.memSize → s.mem.read s.pc.toNat = b →
    (b.toNat ≤ 0x03 ∨ (0x05 ≤ b.toNat ∧ b.toNat ≤ 0x07) ∨ (0x35 ≤ b.toNat ∧ b.toNat ≤ 0x37) ∨ 0x4C ≤ b.toNat) →
    step s = .next (takeFault (.invalidOpcode s.pc b) s)

/-- What the assembler accepts for a statement is an instruction of the statement's length whose encoding decodes back to it
(R77, R78). -/
def Obligations.AssembledStatementDecodesBack : Prop :=
  ∀ (table : List (Label × Nat)) (pc : Nat) (a : AsmInstr) (i : Instr) (rest : List Byte),
    asmInstr table pc a = some i → (encode i).length = a.length ∧ decode (encode i ++ rest) = .ok (i, rest)

/-- The pseudo-instructions (R77): CLR.w expands to `LDI.w d, 0`, 9 + w bytes long; NOP expands to a JMP to the byte after it,
9 bytes long, and changes nothing but the pc, which advances by 9. -/
def Obligations.PseudoInstructions : Prop :=
  (∀ (table : List (Label × Nat)) (pc : Nat) (w : Width) (d : OperandAddr), d.wellFormed = true →
    asmInstr table pc (.clr w d) = some (.ldi w d 0) ∧ (encode (.ldi w d 0)).length = 9 + w.bytes) ∧
  (∀ (table : List (Label × Nat)) (s : State), s.pc.toNat + 9 < 2 ^ 64 →
    asmInstr table s.pc.toNat .nop = some (.jmp (s.pc + 9)) ∧ (encode (.jmp (s.pc + 9))).length = 9 ∧
    (s.pc + 9).toNat = s.pc.toNat + 9 ∧ exec (.jmp (s.pc + 9)) s = .next { s with pc := s.pc + 9 })

/-! ### Register file, memory bank, operands -/

/-- The register file's access contract (10_state.md R25): an index at or past the count faults and changes nothing; any other
reads the register, and a write changes that register alone. -/
def Obligations.RegisterFileContract : Prop :=
  ∀ (s : State) (i : Nat) (v : Word),
    (s.regCount ≤ i → readReg s i = .error (.invalidRegister i) ∧ writeReg s i v = .error (.invalidRegister i)) ∧
    (i < s.regCount →
      (∃ x, s.regs[i]? = some x ∧ readReg s i = .ok x) ∧
      ∃ t, writeReg s i v = .ok t ∧ t.regs[i]? = some v ∧ (∀ k, k ≠ i → t.regs[k]? = s.regs[k]?) ∧
        t = { s with regs := t.regs })

/-- The memory bank's read port (20_memory.md R41): the bounds fault, or the cell whose payload is the little-endian sum of the
bytes. -/
def Obligations.MemoryReadPort : Prop :=
  ∀ (s : State) (a : Nat) (w : Width),
    (a + w.bytes > s.memSize → memRead s a w = .error (.outOfBounds a w.bytes) ∧
      mbRead s w a = .error (.outOfBounds a w.bytes)) ∧
    (a + w.bytes ≤ s.memSize → ∃ v : BitVec w.bits, memRead s a w = .ok v ∧ mbRead s w a = .ok ⟨w, v⟩ ∧
      v.toNat = ((List.range w.bytes).map fun k => (s.mem.read (a + k)).toNat * 2 ^ (8 * k)).sum)

/-- The memory bank's write port (20_memory.md R42): the bounds fault, or bits `8k+7:8k` at address `a+k` and every other byte
and every other field as before. The canonical form of the bank's list is kept. -/
def Obligations.MemoryWritePort : Prop :=
  ∀ (s : State) (a : Nat) (w : Width) (v : BitVec w.bits),
    mbWrite s ⟨w, v⟩ a = memWrite s a w v ∧
    (a + w.bytes > s.memSize → memWrite s a w v = .error (.outOfBounds a w.bytes)) ∧
    (a + w.bytes ≤ s.memSize → ∃ t, memWrite s a w v = .ok t ∧
      (∀ k, k < w.bytes → t.mem.read (a + k) = v.extractLsb' (8 * k) 8) ∧
      (∀ x, x < a ∨ a + w.bytes ≤ x → t.mem.read x = s.mem.read x) ∧
      t = { s with mem := t.mem } ∧ (s.mem.wf → t.mem.wf))

/-- A mixed-width access sees the bytes the earlier write left (20_memory.md R46, the spec's own derivation from R41, R42 and
R44): after a write of width `w` at `a`, a read of width `w'` at `a + k` inside it gives the value's bits from `8k` up. With
`k = 0` and `w' = w` this is the round trip at every width. -/
def Obligations.ReadInsideWrittenCell : Prop :=
  ∀ (s t : State) (a k : Nat) (w w' : Width) (v : BitVec w.bits), memWrite s a w v = .ok t → k + w'.bytes ≤ w.bytes →
    memRead t (a + k) w' = .ok (v.extractLsb' (8 * k) w'.bits)

/-- `Resolve(d)`, the four-row table (40_operand_addressing.md R91). -/
def Obligations.ResolveTable : Prop :=
  ∀ (s : State) (n : Nat),
    resolve s ⟨n, false, false⟩ = .ok (.mem n) ∧
    (n + 8 > s.memSize → resolve s ⟨n, false, true⟩ = .error (.outOfBounds n 8)) ∧
    (n + 8 ≤ s.memSize → ∃ p, memRead s n .w8 = .ok p ∧ resolve s ⟨n, false, true⟩ = .ok (.mem p.toNat)) ∧
    (n ≥ s.regCount → resolve s ⟨n, true, false⟩ = .error (.invalidRegister n)) ∧
    (n < s.regCount → resolve s ⟨n, true, false⟩ = .ok (.reg n)) ∧
    (n ≥ s.regCount → resolve s ⟨n, true, true⟩ = .error (.invalidRegister n)) ∧
    (∀ p, s.regs[n]? = some p → resolve s ⟨n, true, true⟩ = .ok (.mem p.toNat))

/-- `ReadOperand(d, w)` (R96): the resolution's fault, or the low `8w` bits of the register, or the memory read at the resolved
address with its own bounds check. -/
def Obligations.ReadOperandRule : Prop :=
  ∀ (s : State) (d : OperandAddr) (w : Width),
    (∀ f, resolve s d = .error f → readOperand s d w = .error f) ∧
    (∀ i, resolve s d = .ok (.reg i) →
      ∃ x, s.regs[i]? = some x ∧ readOperand s d w = .ok (BitVec.ofNat w.bits (x.toNat % 2 ^ w.bits))) ∧
    (∀ a, resolve s d = .ok (.mem a) → readOperand s d w = memRead s a w)

/-- `WriteOperand(d, w, v)` (R97): the resolution's fault, or the whole register replaced by the zero-extended value, or the
memory write at the resolved address with its own bounds check. -/
def Obligations.WriteOperandRule : Prop :=
  ∀ (s : State) (d : OperandAddr) (w : Width) (v : BitVec w.bits),
    (∀ f, resolve s d = .error f → writeOperand s d w v = .error f) ∧
    (∀ i, resolve s d = .ok (.reg i) →
      ∃ t, writeOperand s d w v = .ok t ∧ t.regs[i]? = some (BitVec.ofNat 64 v.toNat) ∧
        (∀ k, k ≠ i → t.regs[k]? = s.regs[k]?) ∧ t = { s with regs := t.regs }) ∧
    (∀ a, resolve s d = .ok (.mem a) → writeOperand s d w v = memWrite s a w v)

/-- The round trip through one descriptor (R102, the spec's own derivation): a read after a good write returns the value, in
every mode, unless the mode is memory-indirect and the written bytes overlap the pointer's. -/
def Obligations.OperandRoundTrip : Prop :=
  ∀ (s t : State) (d : OperandAddr) (w : Width) (v : BitVec w.bits), writeOperand s d w v = .ok t →
    (d.isRegister = false → d.isIndirect = true →
      pointerAt s d.rawIndex + w.bytes ≤ d.rawIndex ∨ d.rawIndex + 8 ≤ pointerAt s d.rawIndex) →
    readOperand t d w = .ok v

/-! ### Fetch, step, faults -/

/-- The fetch's checks in their order, and what it fetches (41_fetch_execute.md R111); a running step takes a fetch fault. -/
def Obligations.FetchChecksInOrder : Prop :=
  ∀ s : State,
    (s.pc.toNat + 1 > s.memSize → fetch s = .error (.outOfBounds s.pc.toNat 1)) ∧
    (s.pc.toNat + 1 ≤ s.memSize → opcodeOfByte (s.mem.read s.pc.toNat) = none →
      fetch s = .error (.invalidOpcode s.pc (s.mem.read s.pc.toNat))) ∧
    (∀ o, s.pc.toNat + 1 ≤ s.memSize → opcodeOfByte (s.mem.read s.pc.toNat) = some o →
      (s.pc.toNat + o.length > s.memSize → fetch s = .error (.outOfBounds s.pc.toNat o.length)) ∧
      (s.pc.toNat + o.length ≤ s.memSize → ∃ bytes, fetch s = .ok (o, bytes) ∧ bytes.length = o.length ∧
        ∀ k, k < o.length → bytes[k]? = some (s.mem.read (s.pc.toNat + k)))) ∧
    (∀ f, s.status = .running → fetch s = .error f → step s = .next (takeFault f s))

/-- A step runs the decoded instruction (R110 to R114): when bytes in the bank at the pc decode to `i`, one step of the running
CORE is `exec i`. The step adds nothing around it; the pc's advance is in the meaning. -/
def Obligations.StepRunsTheDecodedInstruction : Prop :=
  ∀ (s : State) (n : Nat) (i : Instr) (rest : List Byte), s.status = .running → s.pc.toNat + n ≤ s.memSize →
    decode (s.mem.readBytes s.pc.toNat n) = .ok (i, rest) → step s = exec i s

/-- Faults are precise (R115): a fault the fetch or an operand raises sets the status to Faulted and records the cause and the
pc, and leaves everything else as it was at the step's start; and a step that ends Faulted is always of this form. -/
def Obligations.FaultingStepHasNoOtherEffect : Prop :=
  ∀ s : State, s.status = .running →
    (∀ f, fetchDecode s = .error f → step s = .next { s with status := .faulted, fault := some ⟨f, s.pc⟩ }) ∧
    (∀ i f, fetchDecode s = .ok i → operandFault s i = some f →
      step s = .next { s with status := .faulted, fault := some ⟨f, s.pc⟩ }) ∧
    (∀ t, step s = .next t → t.status = .faulted → ∃ f, t = { s with status := .faulted, fault := some ⟨f, s.pc⟩ })

/-- An ended run never changes again (10_state.md R32): Halted and Faulted are absorbing. -/
def Obligations.EndedRunNeverChanges : Prop :=
  ∀ (s : State) (k : Nat), s.status ≠ .running → step s = .next s ∧ runFor k s = s

/-- The operands decide the outcome (40_operand_addressing.md R100; 60_exceptions.md R184, R185): the fault an instruction reports
is the first its operands meet, sources in field order and then the destination, the resolution before the final access; an
instruction none of whose operands faults completes, with no fault recorded by it. -/
def Obligations.FirstOperandFaultDecidesTheOutcome : Prop :=
  ∀ (i : Instr) (s : State),
    (∀ f, operandFault s i = some f → exec i s = .next (takeFault f s)) ∧
    (operandFault s i = none →
      ∃ t, exec i s = .next t ∧ t.fault = s.fault ∧ t.status = (if i = .halt then .halted else s.status))

/-- No step changes the bank's size or the register count (10_state.md R24, R35, R38). That every step answers a next state, a
faulting one and one of an ended run among them, is the model's choice (log entries 5 and 6, DEDUCED). -/
def Obligations.EveryStepAnswersAndKeepsTheSizes : Prop :=
  ∀ s : State, ∃ t, step s = .next t ∧ t.memExp = s.memExp ∧ t.regCount = s.regCount

/-- The pc after a completed step that is no control transfer (10_state.md R29, in part the spec's own derivation): it advances
by the instruction's length, exactly, without wrapping. -/
def Obligations.SequentialAdvanceNeverWraps : Prop :=
  ∀ (s t : State) (i : Instr), s.status = .running → fetchDecode s = .ok i → step s = .next t → t.status ≠ .faulted →
    i.isTransfer = false → t.pc.toNat = s.pc.toNat + i.length ∧ t.pc.toNat ≤ s.memSize

/-- A step sees the bytes the step before it wrote (20_memory.md R56, the spec's own derivation): a step that writes the HALT
byte at the address right after itself halts the machine in the next step. -/
def Obligations.WrittenHaltIsFetchedNext : Prop :=
  ∀ (s : State) (dst : OperandAddr), s.status = .running → fetchDecode s = .ok (.ldi .w1 dst 0x04) →
    locationOf s dst = .mem (s.pc.toNat + 10) → accessFault s dst .w1 = none →
    ∃ t u, step s = .next t ∧ step t = .next u ∧ u.status = .halted ∧ u.pc = s.pc + 11 ∧ u.regs = s.regs

/-! ### The instructions -/

/-- HALT (41_fetch_execute.md R120): the pc advances by one, the status becomes Halted, RF and MB are unchanged; its fetch
faults only past the bank; its bytes with `wc /= 0` are illegal; no other instruction reaches Halted. -/
def Obligations.HaltInstruction : Prop :=
  encode .halt = [0x04] ∧
  opcodeOfByte 0x05 = none ∧ opcodeOfByte 0x06 = none ∧ opcodeOfByte 0x07 = none ∧
  (∀ s : State, exec .halt s = .next { s with pc := s.pc + 1, status := .halted }) ∧
  (∀ s : State, s.status = .running → s.pc.toNat < s.memSize → s.mem.read s.pc.toNat = 0x04 →
    step s = .next { s with pc := s.pc + 1, status := .halted }) ∧
  (∀ (s t : State) (i : Instr), exec i s = .next t → s.status ≠ .halted → t.status = .halted → i = .halt)

/-- MOV (42_data_movement.md R130): encoding, the order of its faults, and its effect; the source is read in full before any
byte is written. -/
def Obligations.MovInstruction : Prop :=
  ∀ (w : Width) (dst src : OperandAddr) (s : State),
    encode (.mov w dst src) = BitVec.ofNat 8 (0x08 + codeOfWidth w) :: (descriptorBytes dst ++ descriptorBytes src) ∧
    (encode (.mov w dst src)).length = 17 ∧
    (∀ f, accessFault s src w = some f → exec (.mov w dst src) s = .next (takeFault f s)) ∧
    (∀ f, accessFault s src w = none → accessFault s dst w = some f → exec (.mov w dst src) s = .next (takeFault f s)) ∧
    (accessFault s src w = none → accessFault s dst w = none →
      exec (.mov w dst src) s = .next (written s dst w (operandValue s src w) (s.pc + 17)))

/-- LDI (R131): encoding, its faults, and its effect; the immediate is written as it stands. -/
def Obligations.LdiInstruction : Prop :=
  ∀ (w : Width) (dst : OperandAddr) (imm : BitVec w.bits) (s : State),
    encode (.ldi w dst imm) = BitVec.ofNat 8 (0x0C + codeOfWidth w) :: (descriptorBytes dst ++ leBytes w.bytes imm.toNat) ∧
    (encode (.ldi w dst imm)).length = 9 + w.bytes ∧
    (∀ f, accessFault s dst w = some f → exec (.ldi w dst imm) s = .next (takeFault f s)) ∧
    (accessFault s dst w = none →
      exec (.ldi w dst imm) s = .next (written s dst w imm (s.pc + BitVec.ofNat 64 (9 + w.bytes))))

/-- ADD (43_arithmetic_logic.md R141). -/
def Obligations.AddInstruction : Prop := AluRule .add 0x04 fun n va vb => (va + vb) % 2 ^ n

/-- SUB (R142). -/
def Obligations.SubInstruction : Prop := AluRule .sub 0x05 fun n va vb => (va + 2 ^ n - vb) % 2 ^ n

/-- MUL (R143). -/
def Obligations.MulInstruction : Prop := AluRule .mul 0x06 fun n va vb => (va * vb) % 2 ^ n

/-- AND (R144). -/
def Obligations.AndInstruction : Prop := AluRule .and 0x07 fun _ va vb => va &&& vb

/-- OR (R145). -/
def Obligations.OrInstruction : Prop := AluRule .or 0x08 fun _ va vb => va ||| vb

/-- XOR (R146). -/
def Obligations.XorInstruction : Prop := AluRule .xor 0x09 fun _ va vb => va ^^^ vb

/-- SHL (R147): the shift amount is `vb mod N`. -/
def Obligations.ShlInstruction : Prop := AluRule .shl 0x0A fun n va vb => (va * 2 ^ (vb % n)) % 2 ^ n

/-- SHR (R148). -/
def Obligations.ShrInstruction : Prop := AluRule .shr 0x0B fun n va vb => va / 2 ^ (vb % n)

/-- SAR (R149): the division of the signed reading rounds toward minus infinity. -/
def Obligations.SarInstruction : Prop :=
  AluRule .sar 0x0C fun n va vb => (Int.fdiv (sint n va) (2 ^ (vb % n)) % 2 ^ n).toNat

/-- JMP (44_control_transfer.md R161): encoding, and its effect, which never faults; a JMP to its own address changes nothing, so
the run never ends. -/
def Obligations.JmpInstruction : Prop :=
  opcodeOfByte 0x35 = none ∧ opcodeOfByte 0x36 = none ∧ opcodeOfByte 0x37 = none ∧
  (∀ (target : Word) (s : State),
    encode (.jmp target) = 0x34 :: wordBytes target ∧ (encode (.jmp target)).length = 9 ∧
    exec (.jmp target) s = .next { s with pc := target }) ∧
  ∀ s : State, s.status = .running → fetchDecode s = .ok (.jmp s.pc) → step s = .next s

/-- JMPR (R162): encoding, its faults, and its effect; the target is the zero-extended operand value. -/
def Obligations.JmprInstruction : Prop :=
  ∀ (w : Width) (src : OperandAddr) (s : State),
    encode (.jmpr w src) = BitVec.ofNat 8 (0x48 + codeOfWidth w) :: descriptorBytes src ∧
    (encode (.jmpr w src)).length = 9 ∧
    (∀ f, accessFault s src w = some f → exec (.jmpr w src) s = .next (takeFault f s)) ∧
    (accessFault s src w = none →
      exec (.jmpr w src) s = .next { s with pc := BitVec.ofNat 64 (operandValue s src w).toNat })

/-- JEQ (R163). -/
def Obligations.JeqInstruction : Prop := BranchRule .jeq 0x0E fun _ va vb => va = vb

/-- JNE (R164). -/
def Obligations.JneInstruction : Prop := BranchRule .jne 0x0F fun _ va vb => va ≠ vb

/-- JLTU (R165). -/
def Obligations.JltuInstruction : Prop := BranchRule .jltu 0x10 fun _ va vb => va < vb

/-- JLTS (R166). -/
def Obligations.JltsInstruction : Prop := BranchRule .jlts 0x11 fun n va vb => sint n va < sint n vb

/-- A target outside the bank is committed, and the next step's fetch faults with the target as its pc (R160). -/
def Obligations.BadTargetFaultsAtTheNextFetch : Prop :=
  ∀ (s : State) (target : Word), s.status = .running → s.memSize ≤ target.toNat →
    ∃ t u, exec (.jmp target) s = .next t ∧ t.pc = target ∧ t.status = .running ∧
      step t = .next u ∧ u.status = .faulted ∧ u.fault = some ⟨.outOfBounds target.toNat 1, target⟩ ∧ u.pc = target

/-- A jump to its own address is an infinite loop that never halts or faults (R161, R117). -/
def Obligations.JumpToItselfRunsForever : Prop :=
  ∀ s : State, s.status = .running → fetchDecode s = .ok (.jmp s.pc) → RunsForever s ∧ SafeRun s ∧ ∀ k, runFor k s = s

/-! ### Frames -/

/-- The frame of MOV and LDI (R130, R131): only the destination register or the bytes stored to change, the address computed
by the resolution of `dst` in the state before the step. -/
def Obligations.DataMovementFrame : Prop :=
  ∀ (w : Width) (dst src : OperandAddr) (imm : BitVec w.bits) (i : Instr) (s t : State),
    i ∈ [Instr.mov w dst src, .ldi w dst imm] → exec i s = .next t →
    filesFrame s t i ∧ statusFrame s t ∧ i.destination = some (dst, w)

/-- The frame of the nine arithmetic and logic instructions (R140). -/
def Obligations.ArithmeticFrame : Prop :=
  ∀ (w : Width) (dst a b : OperandAddr) (i : Instr) (s t : State),
    i ∈ [Instr.add w dst a b, .sub w dst a b, .mul w dst a b, .and w dst a b, .or w dst a b, .xor w dst a b,
      .shl w dst a b, .shr w dst a b, .sar w dst a b] → exec i s = .next t →
    filesFrame s t i ∧ statusFrame s t ∧ i.destination = some (dst, w)

/-- The frame of the control transfers and of HALT (R160, R120): no register and no byte of memory changes. -/
def Obligations.ControlTransferAndHaltFrame : Prop :=
  ∀ (w : Width) (a b : OperandAddr) (target : Word) (i : Instr) (s t : State),
    i ∈ [Instr.jmp target, .jmpr w a, .jeq w a b target, .jne w a b target, .jltu w a b target, .jlts w a b target,
      .halt] → exec i s = .next t →
    t.memExp = s.memExp ∧ t.regs = s.regs ∧ t.mem = s.mem ∧ (i ≠ .halt → statusFrame s t) ∧
    (i = .halt → t.status = .halted ∧ t.fault = s.fault)

/-- A register an instruction does not name neither matters to it nor is changed by it: setting it before the instruction or
after it gives the same state (41_fetch_execute.md R113; 40_operand_addressing.md R101). -/
def Obligations.UnnamedRegisterDoesNotMatter : Prop :=
  ∀ (i : Instr) (s t : State) (k : Nat) (v : Word), ¬ i.names k → exec i s = .next t →
    exec i (s.withRegs (s.regs.set k v)) = .next (t.withRegs (t.regs.set k v))

/-! ### Invariants -/

/-- Every step keeps the bank's canonical form, with no address at or past `MEM_SIZE` (10_state.md R35). -/
def Obligations.StepKeepsTheBankCanonical : Prop :=
  ∀ s t : State, bankWf s → step s = .next t → bankWf t

/-- Every step keeps the fault record in agreement with the status, and true: its pc is the machine's, an OutOfBounds names a
range past the bank, an InvalidRegister an index past the file and below `2^62`, an InvalidOpcode the illegal byte at the pc
(10_state.md R33; 60_exceptions.md R181 to R183, R186). -/
def Obligations.StepKeepsTheFaultRecordTrue : Prop :=
  ∀ s t : State, recordWf s → step s = .next t → recordWf t

/-- The state after reset meets the invariant; its sizes and its register contents are the model's choice (log entries 2, 3). -/
def Obligations.ResetMeetsTheInvariant : Prop :=
  StateInv State.reset ∧ State.reset.pc = 0 ∧ State.reset.status = .running ∧ State.reset.fault = none ∧
  ∀ a, State.reset.mem.read a = 0

/-- Along every run from a launched state, for every configuration, draw and program, the invariant holds. -/
def Obligations.EveryLaunchedRunKeepsTheInvariant : Prop :=
  ∀ (memExp regCount : Nat) (regInit : List Word) (program : List Byte) (s : State) (k : Nat),
    launch memExp regCount regInit program = .next s → StateInv (runFor k s)

/-! ### Launch, inspection, the generic layer -/

/-- The state after construction and load (70_reset_and_hazards.md R203, R204), for every REG_INIT; an empty program faults at its
first fetch. -/
def Obligations.LaunchedState : Prop :=
  ∀ (memExp regCount : Nat) (regInit : List Word) (program : List Byte) (s : State),
    launch memExp regCount regInit program = .next s →
    s.pc = 0 ∧ s.status = .running ∧ s.fault = none ∧ s.memSize = 2 ^ memExp ∧ s.regCount = regCount ∧
    (∀ i, i < regCount → s.regs[i]? = regInit[i]?) ∧
    (∀ a, a < program.length → program[a]? = some (s.mem.read a)) ∧ (∀ a, program.length ≤ a → s.mem.read a = 0) ∧
    (program = [] → step s = .next (takeFault (.invalidOpcode 0 0x00) s))

/-- A launch is refused exactly in the cases of R201 and R202. -/
def Obligations.LaunchRefusedExactly : Prop :=
  ∀ (memExp regCount : Nat) (regInit : List Word) (program : List Byte),
    (memExp > 63 ∨ regInit.length ≠ regCount ∨ (memExp ≤ 63 ∧ program.length > 2 ^ memExp) →
      ∃ r, launch memExp regCount regInit program = .refused r) ∧
    (memExp ≤ 63 → regInit.length = regCount → program.length ≤ 2 ^ memExp →
      ∃ s, launch memExp regCount regInit program = .next s)

/-- Post-run inspection (R210): the pattern of the expected value, the out-of-bank failure, the comparison, and that it is
defined on a Halted state only. That a check refused and out of the bank at once is refused is the model's choice (log entry
10). -/
def Obligations.InspectionRule : Prop :=
  ∀ (s : State) (a : Nat) (w : Width) (e : Int),
    (s.status ≠ .halted → inspect s ⟨a, w, e⟩ = none) ∧
    (s.status = .halted →
      (e < -(2 ^ (w.bits - 1)) ∨ 2 ^ w.bits ≤ e → inspect s ⟨a, w, e⟩ = some .refused) ∧
      (-(2 ^ (w.bits - 1)) ≤ e → e < 2 ^ w.bits → a + w.bytes > s.memSize → inspect s ⟨a, w, e⟩ = some .fail) ∧
      (-(2 ^ (w.bits - 1)) ≤ e → e < 2 ^ w.bits → a + w.bytes ≤ s.memSize →
        ∃ v, memRead s a w = .ok v ∧
          inspect s ⟨a, w, e⟩ = some (if (v.toNat : Int) = (if 0 ≤ e then e else e + 2 ^ w.bits) then .pass else .fail)))

/-- Pass and fail (R211): a Halted run whose checks all compare equal passes, one with an unequal check fails, a Faulted run
fails with no check made and its fault reported. -/
def Obligations.VerdictRule : Prop :=
  ∀ (s : State) (checks : List Check),
    (s.status = .halted → (∀ c ∈ checks, inspect s c = some .pass) → runVerdict s checks = .pass) ∧
    (s.status = .halted → (∃ c ∈ checks, inspect s c = some .fail) → runVerdict s checks = .fail) ∧
    (s.status = .faulted → runVerdict s checks = .faulted s.fault)

/-- VMR-REF meets the contract every catalog owes (30_encoding.md R60 to R63); and in every catalog that meets it what the decoder
answers is tied to the bytes it reads: the same bytes, in whatever bank and at whatever pc, give the same instruction; a fault
depends on the bank's bytes from the pc up alone; InvalidOpcode names the pc and the byte that stands there, inside the bank; any
other fault is an OutOfBounds that is true of the bank; and a pc past the bank answers OutOfBounds. -/
def Obligations.VmrRefMeetsTheDecoderContract : Prop :=
  DecoderContract vmrRef ∧
  ∀ (C : Catalog), DecoderContract C → ∀ (size : Nat) (mem : Memory) (pc : Word),
    (∀ d, C.decode size mem pc = .ok d → 1 ≤ d.len ∧ pc.toNat + d.len ≤ size ∧
      ∀ (size' : Nat) (mem' : Memory) (pc' : Word), pc'.toNat + d.len ≤ size' →
        (∀ k, k < d.len → mem'.read (pc'.toNat + k) = mem.read (pc.toNat + k)) → C.decode size' mem' pc' = .ok d) ∧
    (∀ f, C.decode size mem pc = .error f →
      ((∃ a n, f = .outOfBounds a n ∧ pc.toNat ≤ a ∧ a + n > size) ∨
        (f = .invalidOpcode pc (mem.read pc.toNat) ∧ pc.toNat < size)) ∧
      ∀ mem' : Memory, (∀ a, pc.toNat ≤ a → a < size → mem'.read a = mem.read a) → C.decode size mem' pc = .error f) ∧
    (size ≤ pc.toNat → ∃ a n, C.decode size mem pc = .error (.outOfBounds a n))

/-- The CORE's step is the generic step over VMR-REF (00_scope.md R2). -/
def Obligations.StepIsTheGenericStepOfVmrRef : Prop := ∀ s : State, step s = catalogStep vmrRef s

/-- Over ANY catalog (00_scope.md R2(a)): a faulting step changes only status and record; the sizes never change; and an ended run
stays. That the generic step always answers a next state, of a fault and of an ended run too, is the model's choice (log entries
5, 6 and 7). -/
def Obligations.GenericStepOverAnyCatalog : Prop :=
  ∀ (C : Catalog) (s : State), ∃ t, catalogStep C s = .next t ∧ t.memExp = s.memExp ∧ t.regCount = s.regCount ∧
    (s.status ≠ .running → t = s) ∧
    (s.status = .running → t.status = .faulted →
      t.regs = s.regs ∧ t.mem = s.mem ∧ t.pc = s.pc ∧ ∃ f, t.fault = some ⟨f, s.pc⟩)
end

