-- ==== Sys2Proof/Laws/Decode.lean ====
section
/-! SUPPORT. Laws of the opcode byte and of the fields. -/

namespace Sys2Proof

/-- The opcode map reads back every opcode byte (R65, R73). -/
theorem opcodeOfByte_byte (o : Opcode) : opcodeOfByte o.byte = some o := by
  cases o <;> first | rfl | (rename_i w; cases w <;> rfl)

theorem byte_opcodeOfByte_all : ∀ b : Byte, ∀ o ∈ opcodeOfByte b, o.byte = b := by decide +kernel

/-- A byte the opcode map knows is its opcode's byte: one byte, one opcode. -/
theorem byte_of_opcodeOfByte {b : Byte} {o : Opcode} (h : opcodeOfByte b = some o) : o.byte = b :=
  byte_opcodeOfByte_all b o (by simp [h])

theorem Opcode.length_pos (o : Opcode) : 1 ≤ o.length := by
  cases o <;> simp only [Opcode.length] <;> omega

theorem Opcode.length_le (o : Opcode) : o.length ≤ maxInstrLength := by
  cases o <;> simp [Opcode.length, maxInstrLength]
  rename_i w; have := w.bytes_le; omega

@[simp] theorem wordBytes_length (v : Word) : (wordBytes v).length = 8 := leBytes_length _ _
@[simp] theorem descriptorBytes_length (d : OperandAddr) : (descriptorBytes d).length = 8 := wordBytes_length _

/-- The opcode of a built instruction is the opcode it was built from. -/
@[simp] theorem opcode_build (o : Opcode) (bs : List Byte) : (o.build bs).opcode = o := by cases o <;> rfl

/-- Every descriptor field's index fits (R67): no field value is ill-formed. -/
theorem unpackDescriptor_wellFormed (D : Word) : (unpackDescriptor D).wellFormed = true := by
  have := (D.extractLsb' 0 62).isLt
  simpa [OperandAddr.wellFormed, unpackDescriptor] using this

theorem build_wellFormed (o : Opcode) (bs : List Byte) : (o.build bs).wellFormed = true := by
  have h := unpackDescriptor_wellFormed
  cases o <;> simp [Opcode.build, Instr.wellFormed, Instr.operands, fieldDescriptor, h]

/-- A packed descriptor's value (R78). -/
theorem packDescriptor_toNat {d : OperandAddr} (h : d.wellFormed = true) :
    (packDescriptor d).toNat =
      (if d.isRegister then 2 ^ 63 else 0) + (if d.isIndirect then 2 ^ 62 else 0) + d.rawIndex := by
  simp only [OperandAddr.wellFormed, decide_eq_true_eq] at h
  simp only [packDescriptor, BitVec.toNat_ofNat]
  apply Nat.mod_eq_of_lt
  split <;> split <;> omega

/-- Packing then unpacking a well-formed descriptor gives it back. -/
theorem unpack_packDescriptor {d : OperandAddr} (h : d.wellFormed = true) : unpackDescriptor (packDescriptor d) = d := by
  have hv := packDescriptor_toNat h
  simp only [OperandAddr.wellFormed, decide_eq_true_eq] at h
  obtain ⟨i, r, ind⟩ := d
  simp only at hv h
  have e1 : (unpackDescriptor (packDescriptor ⟨i, r, ind⟩)).rawIndex = i := by
    simp only [unpackDescriptor, BitVec.extractLsb'_toNat, hv, Nat.shiftRight_zero]
    cases r <;> cases ind <;> simp <;> omega
  have e2 : (unpackDescriptor (packDescriptor ⟨i, r, ind⟩)).isRegister = r := by
    simp only [unpackDescriptor, BitVec.getLsbD, hv, Nat.testBit_eq_decide_div_mod_eq]
    cases r <;> cases ind <;> simp <;> omega
  have e3 : (unpackDescriptor (packDescriptor ⟨i, r, ind⟩)).isIndirect = ind := by
    simp only [unpackDescriptor, BitVec.getLsbD, hv, Nat.testBit_eq_decide_div_mod_eq]
    cases r <;> cases ind <;> simp <;> omega
  calc unpackDescriptor (packDescriptor ⟨i, r, ind⟩)
      = ⟨(unpackDescriptor (packDescriptor ⟨i, r, ind⟩)).rawIndex,
          (unpackDescriptor (packDescriptor ⟨i, r, ind⟩)).isRegister,
          (unpackDescriptor (packDescriptor ⟨i, r, ind⟩)).isIndirect⟩ := rfl
    _ = ⟨i, r, ind⟩ := by rw [e1, e2, e3]

/-- A 64-bit field read back from its bytes. -/
theorem ofNat_leValue_wordBytes (v : Word) : BitVec.ofNat 64 (leValue (wordBytes v)) = v := by
  apply BitVec.eq_of_toNat_eq
  simp only [wordBytes, leValue_leBytes, BitVec.toNat_ofNat]
  have := v.isLt
  omega

end Sys2Proof
end

