-- ==== Sys2Proof/Laws/State.lean ====
section
/-! SUPPORT. One lemma per field per state update, so that no later proof unfolds a record update. -/

namespace Sys2Proof.Machine

@[simp] theorem State.withRegs_memExp (s : State) (x : List Word) : (s.withRegs x).memExp = s.memExp := rfl
@[simp] theorem State.withRegs_regs (s : State) (x : List Word) : (s.withRegs x).regs = x := rfl
@[simp] theorem State.withRegs_mem (s : State) (x : List Word) : (s.withRegs x).mem = s.mem := rfl
@[simp] theorem State.withRegs_pc (s : State) (x : List Word) : (s.withRegs x).pc = s.pc := rfl
@[simp] theorem State.withRegs_status (s : State) (x : List Word) : (s.withRegs x).status = s.status := rfl
@[simp] theorem State.withRegs_fault (s : State) (x : List Word) : (s.withRegs x).fault = s.fault := rfl
@[simp] theorem State.withRegs_memSize (s : State) (x : List Word) : (s.withRegs x).memSize = s.memSize := rfl

@[simp] theorem State.withMem_memExp (s : State) (x : Memory) : (s.withMem x).memExp = s.memExp := rfl
@[simp] theorem State.withMem_regs (s : State) (x : Memory) : (s.withMem x).regs = s.regs := rfl
@[simp] theorem State.withMem_mem (s : State) (x : Memory) : (s.withMem x).mem = x := rfl
@[simp] theorem State.withMem_pc (s : State) (x : Memory) : (s.withMem x).pc = s.pc := rfl
@[simp] theorem State.withMem_status (s : State) (x : Memory) : (s.withMem x).status = s.status := rfl
@[simp] theorem State.withMem_fault (s : State) (x : Memory) : (s.withMem x).fault = s.fault := rfl
@[simp] theorem State.withMem_memSize (s : State) (x : Memory) : (s.withMem x).memSize = s.memSize := rfl
@[simp] theorem State.withMem_regCount (s : State) (x : Memory) : (s.withMem x).regCount = s.regCount := rfl

@[simp] theorem State.withPc_memExp (s : State) (x : Word) : (s.withPc x).memExp = s.memExp := rfl
@[simp] theorem State.withPc_regs (s : State) (x : Word) : (s.withPc x).regs = s.regs := rfl
@[simp] theorem State.withPc_mem (s : State) (x : Word) : (s.withPc x).mem = s.mem := rfl
@[simp] theorem State.withPc_pc (s : State) (x : Word) : (s.withPc x).pc = x := rfl
@[simp] theorem State.withPc_status (s : State) (x : Word) : (s.withPc x).status = s.status := rfl
@[simp] theorem State.withPc_fault (s : State) (x : Word) : (s.withPc x).fault = s.fault := rfl
@[simp] theorem State.withPc_memSize (s : State) (x : Word) : (s.withPc x).memSize = s.memSize := rfl
@[simp] theorem State.withPc_regCount (s : State) (x : Word) : (s.withPc x).regCount = s.regCount := rfl

@[simp] theorem State.withStatus_memExp (s : State) (x : RunStatus) : (s.withStatus x).memExp = s.memExp := rfl
@[simp] theorem State.withStatus_regs (s : State) (x : RunStatus) : (s.withStatus x).regs = s.regs := rfl
@[simp] theorem State.withStatus_mem (s : State) (x : RunStatus) : (s.withStatus x).mem = s.mem := rfl
@[simp] theorem State.withStatus_pc (s : State) (x : RunStatus) : (s.withStatus x).pc = s.pc := rfl
@[simp] theorem State.withStatus_status (s : State) (x : RunStatus) : (s.withStatus x).status = x := rfl
@[simp] theorem State.withStatus_fault (s : State) (x : RunStatus) : (s.withStatus x).fault = s.fault := rfl
@[simp] theorem State.withStatus_memSize (s : State) (x : RunStatus) : (s.withStatus x).memSize = s.memSize := rfl
@[simp] theorem State.withStatus_regCount (s : State) (x : RunStatus) : (s.withStatus x).regCount = s.regCount := rfl

@[simp] theorem State.withFault_memExp (s : State) (x : Option FaultRecord) : (s.withFault x).memExp = s.memExp := rfl
@[simp] theorem State.withFault_regs (s : State) (x : Option FaultRecord) : (s.withFault x).regs = s.regs := rfl
@[simp] theorem State.withFault_mem (s : State) (x : Option FaultRecord) : (s.withFault x).mem = s.mem := rfl
@[simp] theorem State.withFault_pc (s : State) (x : Option FaultRecord) : (s.withFault x).pc = s.pc := rfl
@[simp] theorem State.withFault_status (s : State) (x : Option FaultRecord) : (s.withFault x).status = s.status := rfl
@[simp] theorem State.withFault_fault (s : State) (x : Option FaultRecord) : (s.withFault x).fault = x := rfl
@[simp] theorem State.withFault_memSize (s : State) (x : Option FaultRecord) : (s.withFault x).memSize = s.memSize := rfl
@[simp] theorem State.withFault_regCount (s : State) (x : Option FaultRecord) : (s.withFault x).regCount = s.regCount := rfl

/-! ### Taking a fault (R115) -/

@[simp] theorem takeFault_memExp (f : Fault) (s : State) : (takeFault f s).memExp = s.memExp := rfl
@[simp] theorem takeFault_regs (f : Fault) (s : State) : (takeFault f s).regs = s.regs := rfl
@[simp] theorem takeFault_mem (f : Fault) (s : State) : (takeFault f s).mem = s.mem := rfl
@[simp] theorem takeFault_pc (f : Fault) (s : State) : (takeFault f s).pc = s.pc := rfl
@[simp] theorem takeFault_status (f : Fault) (s : State) : (takeFault f s).status = .faulted := rfl
@[simp] theorem takeFault_fault (f : Fault) (s : State) : (takeFault f s).fault = some ⟨f, s.pc⟩ := rfl
@[simp] theorem takeFault_memSize (f : Fault) (s : State) : (takeFault f s).memSize = s.memSize := rfl
@[simp] theorem takeFault_regCount (f : Fault) (s : State) : (takeFault f s).regCount = s.regCount := rfl

/-- The bank has at least one byte, and at most `2^63` (R7). -/
theorem State.memSize_pos (s : State) : 0 < s.memSize := Nat.two_pow_pos _

theorem State.memSize_le (s : State) : s.memSize ≤ 2 ^ 63 :=
  Nat.pow_le_pow_right (by decide) (by omega)

/-- Two states are equal when their six fields are. -/
theorem State.ext_fields {s t : State} (h1 : s.memExp = t.memExp) (h2 : s.regs = t.regs) (h3 : s.mem = t.mem)
    (h4 : s.pc = t.pc) (h5 : s.status = t.status) (h6 : s.fault = t.fault) : s = t := by
  cases s; cases t; simp_all

end Sys2Proof.Machine
end

