-- ==== Sys2Proof/Laws/Operands.lean ====
section
/-! SUPPORT. What the ports and the operand resolver can do, said once: each succeeds exactly when the rules' check passes, and
then gives the rules' value or state. Later proofs cite these and unfold none of the operations. -/

namespace Sys2Proof.Machine

/-! ### Binding in `Except` -/

@[simp] theorem except_bind_ok {α β : Type} (v : α) (f : α → Except Fault β) : (Except.ok v >>= f) = f v := rfl

@[simp] theorem except_bind_error {α β : Type} (e : Fault) (f : α → Except Fault β) :
    ((Except.error e : Except Fault α) >>= f) = .error e := rfl

/-! ### The ports -/

theorem memRead_eq (s : State) (a : Nat) (w : Width) :
    memRead s a w = match boundsFault s a w.bytes with
      | none => .ok (BitVec.ofNat w.bits (leValue (s.mem.readBytes a w.bytes)))
      | some f => .error f := by
  unfold memRead boundsFault
  by_cases h : a + w.bytes ≤ s.memSize
  · rw [if_neg (by omega), if_pos h]
  · rw [if_pos (by omega), if_neg h]

theorem memWrite_eq (s : State) (a : Nat) (w : Width) (v : BitVec w.bits) :
    memWrite s a w v = match boundsFault s a w.bytes with
      | none => .ok (placedAt s (.mem a) w v)
      | some f => .error f := by
  unfold memWrite boundsFault
  by_cases h : a + w.bytes ≤ s.memSize
  · rw [if_neg (by omega), if_pos h]; rfl
  · rw [if_pos (by omega), if_neg h]

theorem readReg_eq (s : State) (i : Nat) :
    readReg s i = if i < s.regCount then .ok (s.regs.getD i 0) else .error (.invalidRegister i) := by
  unfold readReg State.regCount
  by_cases h : i < s.regs.length
  · simp [h]
  · rw [if_neg h, List.getElem?_eq_none (by omega)]

theorem writeReg_eq (s : State) (i : Nat) (v : Word) :
    writeReg s i v = if i < s.regCount then .ok (s.withRegs (s.regs.set i v)) else .error (.invalidRegister i) := by
  unfold writeReg
  by_cases h : i < s.regCount
  · rw [if_neg (by omega), if_pos h]
  · rw [if_pos (by omega), if_neg h]

theorem leValue_readBytes_lt (m : Memory) (a n : Nat) : leValue (m.readBytes a n) < 256 ^ n := by
  have := leValue_lt (m.readBytes a n)
  rwa [Memory.readBytes_length] at this

theorem pointerAt_lt (s : State) (a : Nat) : pointerAt s a < 2 ^ 64 := by
  have := leValue_readBytes_lt s.mem a 8
  unfold pointerAt
  omega

/-! ### The resolver -/

/-- The fault resolution itself raises (R91): the pointer read's or the index check's. -/
def resolveFault (s : State) (d : OperandAddr) : Option Fault :=
  match d.isRegister, d.isIndirect with
  | false, false => none
  | false, true => boundsFault s d.rawIndex 8
  | true, _ => if d.rawIndex < s.regCount then none else some (.invalidRegister d.rawIndex)

/-- The fault the final access raises at a location (R96, R97). -/
def locationFault (s : State) (loc : Location) (w : Width) : Option Fault :=
  match loc with
  | .reg i => if i < s.regCount then none else some (.invalidRegister i)
  | .mem a => boundsFault s a w.bytes

theorem resolve_eq (s : State) (d : OperandAddr) :
    resolve s d = match resolveFault s d with
      | none => .ok (locationOf s d)
      | some f => .error f := by
  obtain ⟨i, r, ind⟩ := d
  cases r <;> cases ind
  · rfl
  · simp only [resolve, resolveFault, locationOf, memRead_eq]
    have hb : Width.bytes .w8 = 8 := rfl
    rw [hb]
    cases boundsFault s i 8 with
    | some f => rfl
    | none =>
      simp only [except_bind_ok, BitVec.toNat_ofNat, pointerAt]
      have h := leValue_readBytes_lt s.mem i 8
      rw [Nat.mod_eq_of_lt (by exact h)]
  · simp only [resolve, resolveFault, locationOf]
    by_cases h : i < s.regCount
    · rw [if_neg (by omega), if_pos h]
    · rw [if_pos (by omega), if_neg h]
  · simp only [resolve, resolveFault, locationOf, readReg_eq]
    by_cases h : i < s.regCount
    · simp only [if_pos h, except_bind_ok]
    · simp only [if_neg h, except_bind_error]

theorem readLocation_eq (s : State) (loc : Location) (w : Width) :
    readLocation s loc w = match locationFault s loc w with
      | none => .ok (valueAt s loc w)
      | some f => .error f := by
  cases loc with
  | mem a => exact memRead_eq s a w
  | reg i =>
    simp only [readLocation, locationFault, readReg_eq]
    by_cases h : i < s.regCount
    · simp only [if_pos h, except_bind_ok, valueAt]
      congr 1
      apply BitVec.eq_of_toNat_eq
      simp
    · simp only [if_neg h, except_bind_error]

theorem writeLocation_eq (s : State) (loc : Location) (w : Width) (v : BitVec w.bits) :
    writeLocation s loc w v = match locationFault s loc w with
      | none => .ok (placedAt s loc w v)
      | some f => .error f := by
  cases loc with
  | mem a => exact memWrite_eq s a w v
  | reg i =>
    simp only [writeLocation, locationFault, writeReg_eq]
    by_cases h : i < s.regCount
    · simp only [if_pos h, placedAt, BitVec.ofNat_toNat, State.withRegs]
    · simp only [if_neg h]

/-- An access faults in its resolution or else at its location. -/
theorem accessFault_eq (s : State) (d : OperandAddr) (w : Width) :
    accessFault s d w = (resolveFault s d).or (locationFault s (locationOf s d) w) := by
  obtain ⟨i, r, ind⟩ := d
  cases r <;> cases ind <;> simp only [accessFault, resolveFault, locationFault, locationOf, Option.none_or]
  · by_cases h : i < s.regCount <;> simp [h]
  · by_cases h : i < s.regCount <;> simp [h]

/-- What reading an operand can do (R96). -/
theorem readOperand_eq (s : State) (d : OperandAddr) (w : Width) :
    readOperand s d w = match accessFault s d w with
      | none => .ok (operandValue s d w)
      | some f => .error f := by
  unfold readOperand operandValue
  rw [resolve_eq, accessFault_eq]
  cases resolveFault s d with
  | some f => rfl
  | none => simp only [except_bind_ok, readLocation_eq, Option.none_or]

/-- What writing an operand can do (R97). -/
theorem writeOperand_eq (s : State) (d : OperandAddr) (w : Width) (v : BitVec w.bits) :
    writeOperand s d w v = match accessFault s d w with
      | none => .ok (placedAt s (locationOf s d) w v)
      | some f => .error f := by
  unfold writeOperand
  rw [resolve_eq, accessFault_eq]
  cases resolveFault s d with
  | some f => rfl
  | none => simp only [except_bind_ok, writeLocation_eq, Option.none_or]

/-! ### What a placed value leaves alone -/

@[simp] theorem placedAt_memExp (s : State) (loc : Location) (w : Width) (v : BitVec w.bits) :
    (placedAt s loc w v).memExp = s.memExp := by cases loc <;> rfl
@[simp] theorem placedAt_pc (s : State) (loc : Location) (w : Width) (v : BitVec w.bits) :
    (placedAt s loc w v).pc = s.pc := by cases loc <;> rfl
@[simp] theorem placedAt_status (s : State) (loc : Location) (w : Width) (v : BitVec w.bits) :
    (placedAt s loc w v).status = s.status := by cases loc <;> rfl
@[simp] theorem placedAt_fault (s : State) (loc : Location) (w : Width) (v : BitVec w.bits) :
    (placedAt s loc w v).fault = s.fault := by cases loc <;> rfl
@[simp] theorem placedAt_memSize (s : State) (loc : Location) (w : Width) (v : BitVec w.bits) :
    (placedAt s loc w v).memSize = s.memSize := by cases loc <;> rfl
@[simp] theorem placedAt_regCount (s : State) (loc : Location) (w : Width) (v : BitVec w.bits) :
    (placedAt s loc w v).regCount = s.regCount := by
  cases loc with
  | reg i => exact List.length_set
  | mem a => rfl

end Sys2Proof.Machine
end

