-- ==== Sys2Proof/Laws/Execute.lean ====
section
/-! SUPPORT. What executing an instruction can do, said once: every meaning is the shared `finish` of its effect, and `finish`
either takes a fault or leaves the committed state. -/

namespace Sys2Proof.Machine

/-- Every arm of the dispatch is `finish` of the instruction's effect. -/
theorem exec_eq_finish (i : Instr) (s : State) : exec i s = finish s (instrEffect i s) := by
  cases i <;> rfl

theorem finish_error (s : State) (f : Fault) : finish s (.error f) = .next (takeFault f s) := rfl

/-- An effect without a write always commits. -/
theorem finish_no_write (s : State) (pc : Word) (halt : Bool) :
    finish s (.ok ⟨none, pc, halt⟩) = .next ((s.withPc pc).withStatus (statusAfter s halt)) := rfl

theorem finish_jump (s : State) (pc : Word) : finish s (.ok (jumpEffect pc)) = .next (s.withPc pc) := rfl

/-- An effect with a write takes the destination's fault, or commits the written state. -/
theorem finish_write (s : State) (dst : OperandAddr) (w : Width) (v : BitVec w.bits) (len : Nat) :
    finish s (.ok (writeEffect s dst w v len)) = .next (match accessFault s dst w with
      | none => written s dst w v (advance s len)
      | some f => takeFault f s) := by
  simp only [finish, commit, writeEffect, writeOperand_eq]
  cases accessFault s dst w with
  | some f => rfl
  | none =>
    simp only [except_bind_ok, statusAfter, Bool.false_eq_true, if_false, written]
    rfl

/-- `finish` never faults or refuses: it always answers a next state. -/
theorem finish_next (s : State) (r : Except Fault Effect) : ∃ t, finish s r = .next t := by
  unfold finish
  split
  · exact ⟨_, rfl⟩
  · split <;> exact ⟨_, rfl⟩

/-- No instruction is refused, and none stops the machine: `exec` always answers a next state. -/
theorem exec_next (i : Instr) (s : State) : ∃ t, exec i s = .next t := by
  rw [exec_eq_finish]; exact finish_next _ _

/-- The ALU form after its two reads (R140). -/
theorem aluEffect_eq (w : Width) (f : BitVec w.bits → BitVec w.bits → BitVec w.bits) (dst a b : OperandAddr) (s : State) :
    aluEffect w f dst a b s = match (accessFault s a w).or (accessFault s b w) with
      | none => .ok (writeEffect s dst w (f (operandValue s a w) (operandValue s b w)) 25)
      | some f => .error f := by
  unfold aluEffect
  rw [readOperand_eq, readOperand_eq]
  cases accessFault s a w with
  | some f => rfl
  | none =>
    simp only [except_bind_ok, Option.none_or]
    cases accessFault s b w <;> rfl

/-- The conditional-transfer form after its two reads (R163). -/
theorem branchEffect_eq (w : Width) (c : BitVec w.bits → BitVec w.bits → Bool) (a b : OperandAddr) (target : Word)
    (s : State) :
    branchEffect w c a b target s = match (accessFault s a w).or (accessFault s b w) with
      | none => .ok (jumpEffect (if c (operandValue s a w) (operandValue s b w) then target else advance s 25))
      | some f => .error f := by
  unfold branchEffect
  rw [readOperand_eq, readOperand_eq]
  cases accessFault s a w with
  | some f => rfl
  | none =>
    simp only [except_bind_ok, Option.none_or]
    cases accessFault s b w <;> rfl

end Sys2Proof.Machine
end

