-- ==== Sys2Proof/Laws/Generic.lean ====
section
/-! SUPPORT. Laws of the generic layer: what a port read answers, and VMR-REF's decoder against the machine's fetch. -/

namespace Sys2Proof.Machine

@[simp] theorem bankBytes_past {size : Nat} {mem : Memory} {a n : Nat} (h : size < a + n) :
    bankBytes size mem a n = .error (.outOfBounds a n) := if_pos h

@[simp] theorem bankBytes_inside {size : Nat} {mem : Memory} {a n : Nat} (h : a + n ≤ size) :
    bankBytes size mem a n = .ok (mem.readBytes a n) := if_neg (by omega)

/-- What a path has read lies inside the length of the instruction it spells (R61). -/
theorem DecodeProgram.read_le_len {Tag : Type} {size : Nat} {mem : Memory} {pc : Word} {d : Decoded Tag} :
    ∀ {p : DecodeProgram Tag} {m : Nat}, p.readsOwnBytes m → p.run size mem pc = .ok d → m ≤ d.len ∧ 1 ≤ d.len
  | .readByte offset next, m, h, hr => by
    by_cases hb : pc.toNat + offset + 1 ≤ size
    · simp only [run, bankBytes_inside hb, except_bind_ok] at hr
      have := read_le_len (h _) hr
      omega
    · rw [run, bankBytes_past (by omega)] at hr; cases hr
  | .readBytes n next, m, h, hr => by
    by_cases hb : pc.toNat + n ≤ size
    · simp only [run, bankBytes_inside hb, except_bind_ok] at hr
      have := read_le_len (h _ (Memory.readBytes_length ..)) hr
      omega
    · rw [run, bankBytes_past (by omega)] at hr; cases hr
  | .spells e, m, h, hr => by cases hr; exact ⟨h.2, h.1⟩
  | .noTag, m, h, hr => by
    by_cases hb : pc.toNat + 1 ≤ size
    · rw [run, bankBytes_inside hb] at hr; cases hr
    · rw [run, bankBytes_past (by omega)] at hr; cases hr

/-- A tag with the operands of one of its instructions is that instruction: the operand list loses nothing. -/
theorem instrOf_decodedOperands (i : Instr) : instrOf i.opcode (decodedOperands i) = i := by
  cases i <;> simp [instrOf, decodedOperands, Instr.opcode, Instr.operands, descriptorAt, immediateAt]

/-- VMR-REF's decoder as a catalog and the machine's fetch and decode give the same instructions and faults. -/
theorem fetchDecode_eq_vmrRef (s : State) :
    fetchDecode s = (vmrRef.decode s.memSize s.mem s.pc).map fun d => instrOf d.tag d.operands := by
  simp only [Catalog.decode, vmrRef, vmrDecoder, DecodeProgram.run, fetchDecode, fetch, Nat.add_zero]
  by_cases h : s.pc.toNat + 1 ≤ s.memSize
  · rw [if_neg (by omega), bankBytes_inside h]
    cases ho : opcodeOfByte (s.mem.read s.pc.toNat) with
    | none => simp only [except_bind_ok, DecodeProgram.run, bankBytes_inside h]; rfl
    | some o =>
      simp only [except_bind_ok, DecodeProgram.run]
      by_cases hl : s.pc.toNat + o.length ≤ s.memSize
      · rw [if_neg (by omega), bankBytes_inside hl]
        have hi := instrOf_decodedOperands (o.build (s.mem.readBytes s.pc.toNat o.length))
        rw [opcode_build] at hi
        simp only [except_bind_ok, Except.map, hi]
      · rw [if_pos (by omega), bankBytes_past (by omega)]; rfl
  · rw [if_pos (by omega), bankBytes_past (by omega)]; rfl

end Sys2Proof.Machine
end

