-- ==== Sys2Proof/Laws/PerInstr.lean ====
section
/-! SUPPORT. Statements about every instruction as syntax, one lemma per constructor. `EncodedLength`: the encoding is as long
as the format of R70 says, between 1 and 25 bytes. -/

namespace Sys2Proof.Laws.EncodedLength

/-- The encoding of `i` has exactly its format's length, and it is between 1 and 25 bytes (R64, R70). -/
def Statement (i : Instr) : Prop :=
  (encode i).length = i.length ∧ 1 ≤ (encode i).length ∧ (encode i).length ≤ maxInstrLength

theorem of_length {i : Instr} (h : (encode i).length = i.length) : Statement i :=
  ⟨h, by rw [h]; exact i.opcode.length_pos, by rw [h]; exact i.opcode.length_le⟩

theorem halt : Statement .halt := of_length rfl
theorem mov (w : Width) (dst src : OperandAddr) : Statement (.mov w dst src) :=
  of_length (by simp [encode, Instr.fieldBytes, Instr.length, Instr.opcode, Opcode.length])
theorem ldi (w : Width) (dst : OperandAddr) (imm : BitVec w.bits) : Statement (.ldi w dst imm) :=
  of_length (by simp [encode, Instr.fieldBytes, Instr.length, Instr.opcode, Opcode.length]; omega)
theorem add (w : Width) (dst a b : OperandAddr) : Statement (.add w dst a b) :=
  of_length (by simp [encode, Instr.fieldBytes, Instr.length, Instr.opcode, Opcode.length])
theorem sub (w : Width) (dst a b : OperandAddr) : Statement (.sub w dst a b) :=
  of_length (by simp [encode, Instr.fieldBytes, Instr.length, Instr.opcode, Opcode.length])
theorem mul (w : Width) (dst a b : OperandAddr) : Statement (.mul w dst a b) :=
  of_length (by simp [encode, Instr.fieldBytes, Instr.length, Instr.opcode, Opcode.length])
theorem and (w : Width) (dst a b : OperandAddr) : Statement (.and w dst a b) :=
  of_length (by simp [encode, Instr.fieldBytes, Instr.length, Instr.opcode, Opcode.length])
theorem or (w : Width) (dst a b : OperandAddr) : Statement (.or w dst a b) :=
  of_length (by simp [encode, Instr.fieldBytes, Instr.length, Instr.opcode, Opcode.length])
theorem xor (w : Width) (dst a b : OperandAddr) : Statement (.xor w dst a b) :=
  of_length (by simp [encode, Instr.fieldBytes, Instr.length, Instr.opcode, Opcode.length])
theorem shl (w : Width) (dst a b : OperandAddr) : Statement (.shl w dst a b) :=
  of_length (by simp [encode, Instr.fieldBytes, Instr.length, Instr.opcode, Opcode.length])
theorem shr (w : Width) (dst a b : OperandAddr) : Statement (.shr w dst a b) :=
  of_length (by simp [encode, Instr.fieldBytes, Instr.length, Instr.opcode, Opcode.length])
theorem sar (w : Width) (dst a b : OperandAddr) : Statement (.sar w dst a b) :=
  of_length (by simp [encode, Instr.fieldBytes, Instr.length, Instr.opcode, Opcode.length])
theorem jmp (target : Word) : Statement (.jmp target) :=
  of_length (by simp [encode, Instr.fieldBytes, Instr.length, Instr.opcode, Opcode.length])
theorem jeq (w : Width) (a b : OperandAddr) (target : Word) : Statement (.jeq w a b target) :=
  of_length (by simp [encode, Instr.fieldBytes, Instr.length, Instr.opcode, Opcode.length])
theorem jne (w : Width) (a b : OperandAddr) (target : Word) : Statement (.jne w a b target) :=
  of_length (by simp [encode, Instr.fieldBytes, Instr.length, Instr.opcode, Opcode.length])
theorem jltu (w : Width) (a b : OperandAddr) (target : Word) : Statement (.jltu w a b target) :=
  of_length (by simp [encode, Instr.fieldBytes, Instr.length, Instr.opcode, Opcode.length])
theorem jlts (w : Width) (a b : OperandAddr) (target : Word) : Statement (.jlts w a b target) :=
  of_length (by simp [encode, Instr.fieldBytes, Instr.length, Instr.opcode, Opcode.length])
theorem jmpr (w : Width) (src : OperandAddr) : Statement (.jmpr w src) :=
  of_length (by simp [encode, Instr.fieldBytes, Instr.length, Instr.opcode, Opcode.length])

end Sys2Proof.Laws.EncodedLength
end

