-- ==== Sys2Proof/Tests/Slice0.lean ====
section
/-! SUPPORT. The model's own tests: the WellFormed smoke test, the decoding of words written out from the spec's encoding tables
(30_encoding.md R67 to R73), single steps with the results 95_test_vectors.md gives, and for every statement with hypotheses a
state and operands that meet them. -/

namespace Sys2Proof.Tests

open Sys2Proof.Machine

/-! ### Helpers -/

/-- A running state with these bytes at the pc. -/
def at' (memExp : Fin 64) (regs : List Word) (mem : Memory) (pc : Word) (bytes : List Byte) : State where
  memExp := memExp
  regs   := regs
  mem    := mem.writeBytes pc.toNat bytes
  pc     := pc
  status := .running
  fault  := none

/-- The state a step leaves. -/
def after (s : State) : State :=
  match step s with
  | .next t => t
  | .fault _ => s
  | .refused _ => s

/-- An operation's fault, if it has one. -/
def faultOf {α : Type} : Except Fault α → Option Fault
  | .ok _ => none
  | .error f => some f

/-- The fields a faulting step sets. -/
def ended (s : State) : RunStatus × Option FaultRecord × Word := (s.status, s.fault, s.pc)

/-- The start of the V-ALU vectors: `OP.w r2, r0, r1` at pc 0 (95_test_vectors.md). -/
def aluStart (opcode : Byte) (x0 x1 : Word) : State :=
  at' 10 [x0, x1, 0x5555555555555555] [] 0
    [opcode, 2, 0, 0, 0, 0, 0, 0, 0x80, 0, 0, 0, 0, 0, 0, 0, 0x80, 1, 0, 0, 0, 0, 0, 0, 0x80]

/-- What a V-ALU vector states: `x[2]`, the pc and the status after the step. -/
def aluEnd (opcode : Byte) (x0 x1 : Word) : Option Word × Word × RunStatus :=
  let t := after (aluStart opcode x0 x1)
  (t.regs[2]?, t.pc, t.status)

/-- The start of the V-BR vectors: `Jcc.w r0, r1, 0x300` at pc 0x100. -/
def branchStart (opcode : Byte) (x0 x1 : Word) : State :=
  at' 10 [x0, x1] [] 0x100
    [opcode, 0, 0, 0, 0, 0, 0, 0, 0x80, 1, 0, 0, 0, 0, 0, 0, 0x80, 0, 3, 0, 0, 0, 0, 0, 0]

/-- A bank of 1024 bytes with the pointer 0x340 at 0x300 (L1-3), and two registers, the second a pointer to 0x200. -/
def base : State := at' 10 [0x1234, 0x200] [(0x300, 0x40), (0x301, 0x03)] 0 []

/-! ### Well-formedness: one ill-formed term for each check -/


theorem test_ill_formed_mov_ldi_jmpr :
    [Instr.mov .w8 (.mem (2 ^ 62)) (.reg 0),
     .mov .w1 (.reg 0) (.regInd (2 ^ 62)),
     .ldi .w8 (.reg (2 ^ 62)) 0,
     .jmpr .w8 (.reg (2 ^ 62))].all (fun i => !i.wellFormed) = true := by decide

theorem test_ill_formed_alu_dst :
    [Instr.add .w8 (.mem (2 ^ 62)) (.reg 0) (.reg 1),
     .sub .w8 (.mem (2 ^ 62)) (.reg 0) (.reg 1),
     .mul .w8 (.mem (2 ^ 62)) (.reg 0) (.reg 1),
     .and .w8 (.mem (2 ^ 62)) (.reg 0) (.reg 1),
     .or .w8 (.mem (2 ^ 62)) (.reg 0) (.reg 1),
     .xor .w8 (.mem (2 ^ 62)) (.reg 0) (.reg 1),
     .shl .w8 (.mem (2 ^ 62)) (.reg 0) (.reg 1),
     .shr .w8 (.mem (2 ^ 62)) (.reg 0) (.reg 1),
     .sar .w8 (.mem (2 ^ 62)) (.reg 0) (.reg 1)].all (fun i => !i.wellFormed) = true := by decide

theorem test_ill_formed_alu_a :
    [Instr.add .w4 (.reg 0) (.memInd (2 ^ 62)) (.reg 1),
     .sub .w4 (.reg 0) (.memInd (2 ^ 62)) (.reg 1),
     .mul .w4 (.reg 0) (.memInd (2 ^ 62)) (.reg 1),
     .and .w4 (.reg 0) (.memInd (2 ^ 62)) (.reg 1),
     .or .w4 (.reg 0) (.memInd (2 ^ 62)) (.reg 1),
     .xor .w4 (.reg 0) (.memInd (2 ^ 62)) (.reg 1),
     .shl .w4 (.reg 0) (.memInd (2 ^ 62)) (.reg 1),
     .shr .w4 (.reg 0) (.memInd (2 ^ 62)) (.reg 1),
     .sar .w4 (.reg 0) (.memInd (2 ^ 62)) (.reg 1)].all (fun i => !i.wellFormed) = true := by decide

theorem test_ill_formed_alu_b :
    [Instr.add .w2 (.reg 0) (.reg 1) (.reg (2 ^ 62)),
     .sub .w2 (.reg 0) (.reg 1) (.reg (2 ^ 62)),
     .mul .w2 (.reg 0) (.reg 1) (.reg (2 ^ 62)),
     .and .w2 (.reg 0) (.reg 1) (.reg (2 ^ 62)),
     .or .w2 (.reg 0) (.reg 1) (.reg (2 ^ 62)),
     .xor .w2 (.reg 0) (.reg 1) (.reg (2 ^ 62)),
     .shl .w2 (.reg 0) (.reg 1) (.reg (2 ^ 62)),
     .shr .w2 (.reg 0) (.reg 1) (.reg (2 ^ 62)),
     .sar .w2 (.reg 0) (.reg 1) (.reg (2 ^ 62))].all (fun i => !i.wellFormed) = true := by decide

theorem test_ill_formed_branch :
    [Instr.jeq .w8 (.mem (2 ^ 62)) (.reg 0) 0,
     .jeq .w1 (.reg 0) (.reg (2 ^ 62)) 0,
     .jne .w8 (.mem (2 ^ 62)) (.reg 0) 0,
     .jne .w1 (.reg 0) (.reg (2 ^ 62)) 0,
     .jltu .w8 (.mem (2 ^ 62)) (.reg 0) 0,
     .jltu .w1 (.reg 0) (.reg (2 ^ 62)) 0,
     .jlts .w8 (.mem (2 ^ 62)) (.reg 0) 0,
     .jlts .w1 (.reg 0) (.reg (2 ^ 62)) 0].all (fun i => !i.wellFormed) = true := by decide

theorem test_well_formed_at_the_limit :
    (Instr.add .w8 (.mem (2 ^ 62 - 1)) (.regInd (2 ^ 62 - 1)) (.memInd 0)).wellFormed = true ∧ Instr.halt.wellFormed = true ∧
      (Instr.jmp 0).wellFormed = true := by decide

/-! ### Decoding words written out from the encoding tables -/

theorem test_decode_halt : decode [0x04, 0xEE] =
    .ok (.halt, [0xEE]) := by decide

theorem test_decode_mov : decode [0x0A, 0, 0, 0, 0, 0, 0, 0, 0xC0, 0x01, 0, 0, 0, 0, 0, 0, 0x80, 0xEE] =
    .ok (.mov .w4 (.regInd 0) (.reg 1), [0xEE]) := by decide

theorem test_decode_ldi : decode [0x0D, 0, 0, 0, 0, 0, 0, 0, 0x80, 0xEF, 0xBE, 0xEE] =
    .ok (.ldi .w2 (.reg 0) 0xBEEF, [0xEE]) := by decide

theorem test_decode_add : decode [0x10, 0x02, 0, 0, 0, 0, 0, 0, 0x80, 0, 0, 0, 0, 0, 0, 0, 0x80, 0x01, 0, 0, 0, 0, 0, 0, 0x80, 0xEE] =
    .ok (.add .w1 (.reg 2) (.reg 0) (.reg 1), [0xEE]) := by decide

theorem test_decode_sub : decode [0x17, 0, 0, 0, 0, 0, 0, 0, 0x80, 0, 0, 0, 0, 0, 0, 0, 0x80, 0x02, 0, 0, 0, 0, 0, 0, 0x80, 0xEE] =
    .ok (.sub .w8 (.reg 0) (.reg 0) (.reg 2), [0xEE]) := by decide

theorem test_decode_mul : decode [0x1A, 0xF8, 0x01, 0, 0, 0, 0, 0, 0x40, 0x03, 0, 0, 0, 0, 0, 0, 0x80, 0x08, 0x07, 0x06, 0x05, 0x04, 0x03, 0x02, 0x01, 0xEE] =
    .ok (.mul .w4 (.memInd 0x1F8) (.reg 3) (.mem 0x102030405060708), [0xEE]) := by decide

theorem test_decode_and : decode [0x1D, 0x02, 0, 0, 0, 0, 0, 0, 0x80, 0, 0, 0, 0, 0, 0, 0, 0x80, 0x01, 0, 0, 0, 0, 0, 0, 0x80, 0xEE] =
    .ok (.and .w2 (.reg 2) (.reg 0) (.reg 1), [0xEE]) := by decide

theorem test_decode_or : decode [0x20, 0x05, 0, 0, 0, 0, 0, 0, 0xC0, 0, 0, 0, 0, 0, 0, 0, 0x80, 0x01, 0, 0, 0, 0, 0, 0, 0x80, 0xEE] =
    .ok (.or .w1 (.regInd 5) (.reg 0) (.reg 1), [0xEE]) := by decide

theorem test_decode_xor : decode [0x27, 0x02, 0, 0, 0, 0, 0, 0, 0x80, 0x40, 0, 0, 0, 0, 0, 0, 0x40, 0x01, 0, 0, 0, 0, 0, 0, 0x80, 0xEE] =
    .ok (.xor .w8 (.reg 2) (.memInd 0x40) (.reg 1), [0xEE]) := by decide

theorem test_decode_shl : decode [0x2A, 0x02, 0, 0, 0, 0, 0, 0, 0x80, 0, 0, 0, 0, 0, 0, 0, 0x80, 0x01, 0, 0, 0, 0, 0, 0, 0x80, 0xEE] =
    .ok (.shl .w4 (.reg 2) (.reg 0) (.reg 1), [0xEE]) := by decide

theorem test_decode_shr : decode [0x2D, 0x02, 0, 0, 0, 0, 0, 0, 0x80, 0, 0, 0, 0, 0, 0, 0, 0x80, 0x01, 0, 0, 0, 0, 0, 0, 0xC0, 0xEE] =
    .ok (.shr .w2 (.reg 2) (.reg 0) (.regInd 1), [0xEE]) := by decide

theorem test_decode_sar : decode [0x30, 0xFF, 0xFF, 0xFF, 0xFF, 0xFF, 0xFF, 0xFF, 0x3F, 0, 0, 0, 0, 0, 0, 0, 0x80, 0x01, 0, 0, 0, 0, 0, 0, 0x80, 0xEE] =
    .ok (.sar .w1 (.mem 0x3FFFFFFFFFFFFFFF) (.reg 0) (.reg 1), [0xEE]) := by decide

theorem test_decode_jmp : decode [0x34, 0xFE, 0xFF, 0xFF, 0xFF, 0xFF, 0xFF, 0xFF, 0xFF, 0xEE] =
    .ok (.jmp 0xFFFFFFFFFFFFFFFE, [0xEE]) := by decide

theorem test_decode_jeq : decode [0x3A, 0, 0, 0, 0, 0, 0, 0, 0x80, 0x03, 0, 0, 0, 0, 0, 0, 0x80, 0xC8, 0, 0, 0, 0, 0, 0, 0, 0xEE] =
    .ok (.jeq .w4 (.reg 0) (.reg 3) 200, [0xEE]) := by decide

theorem test_decode_jne : decode [0x3F, 0, 0, 0, 0, 0, 0, 0, 0x80, 0x03, 0, 0, 0, 0, 0, 0, 0x80, 0x44, 0, 0, 0, 0, 0, 0, 0, 0xEE] =
    .ok (.jne .w8 (.reg 0) (.reg 3) 0x44, [0xEE]) := by decide

theorem test_decode_jltu : decode [0x40, 0, 0, 0, 0, 0, 0, 0, 0xC0, 0x80, 0, 0, 0, 0, 0, 0, 0, 0, 0, 0, 0, 0, 0, 0, 0x80, 0xEE] =
    .ok (.jltu .w1 (.regInd 0) (.mem 0x80) 0x8000000000000000, [0xEE]) := by decide

theorem test_decode_jlts : decode [0x45, 0, 0, 0, 0, 0, 0, 0, 0x80, 0x01, 0, 0, 0, 0, 0, 0, 0x80, 0, 0x03, 0, 0, 0, 0, 0, 0, 0xEE] =
    .ok (.jlts .w2 (.reg 0) (.reg 1) 0x300, [0xEE]) := by decide

theorem test_decode_jmpr : decode [0x4B, 0x03, 0, 0, 0, 0, 0, 0, 0x80, 0xEE] =
    .ok (.jmpr .w8 (.reg 3), [0xEE]) := by decide

theorem test_decode_refuses : decode [] = .error .noBytes ∧ decode [0x4C, 0, 0] = .error (.noSuchOpcode 0x4C) ∧
    decode [0x34, 0, 0, 0, 0, 0, 0, 0] = .error (.truncated 9) := by decide

/-- V-FET-15: 66 of the 256 bytes are legal. -/
theorem test_legal_bytes_counted :
    ((List.range 256).filter fun n => (opcodeOfByte (BitVec.ofNat 8 n)).isSome).length = 66 := by decide

/-- `JMP 0x1234` in the opcode table's numbering of bits: 0x34 in bits 7..0, the target above. -/
theorem test_decode_table_word : decodeTableWord 72 0x123434 = some (.jmp 0x1234) ∧ decodeTableWord 8 0x05 = none := by decide

/-- The placed word is what the first step after reset runs. -/
theorem test_table_word_runs_first : (after (State.reset.withFetchWord 72 0x123434)).pc = 0x1234 := by decide

/-- From reset with nothing placed, the first step faults InvalidOpcode(0, 0x00) (V-FET-11). -/
theorem test_reset_steps_to_fault : step State.reset = .next (takeFault (.invalidOpcode 0 0) State.reset) := rfl

/-! ### One step of each instruction (95_test_vectors.md) -/

/-- V-HLT-1. -/
theorem test_halt : step (at' 6 [] [] 59 [0x04]) = .next { at' 6 [] [] 59 [0x04] with pc := 60, status := .halted } := rfl

/-- V-HLT-2: the last byte of the bank. -/
theorem test_halt_at_the_end : ended (after (at' 6 [] [] 63 [0x04])) = (.halted, none, 64) := by decide

/-- V-OAR-2: a narrow read clears the register's upper bits. -/
theorem test_mov_narrow : (after (at' 10 [0, 0xFFFFFFFFFFFFFFFF] [(0x100, 0x88), (0x101, 0x77)] 0
    [0x08, 1, 0, 0, 0, 0, 0, 0, 0x80, 0, 1, 0, 0, 0, 0, 0, 0])).regs = [0, 0x88] := by decide

/-- V-OAR-15: the source is read in full before the overlapping destination is written. -/
theorem test_mov_overlap : (after (at' 10 [] (Memory.writeBytes [] 0x100 [1, 2, 3, 4, 5, 6, 7, 8]) 0
    [0x0B, 4, 1, 0, 0, 0, 0, 0, 0, 0, 1, 0, 0, 0, 0, 0, 0])).mem.readBytes 0x100 12 = [1, 2, 3, 4, 1, 2, 3, 4, 5, 6, 7, 8] := by
  decide

/-- V-DM-5: the immediate's byte order. -/
theorem test_ldi_memory : (after (at' 10 [] [] 0 [0x0E, 0x80, 1, 0, 0, 0, 0, 0, 0, 0x44, 0x33, 0x22, 0x11])).mem.readBytes
    0x180 4 = [0x44, 0x33, 0x22, 0x11] := by decide

/-- V-DM-2: a store one byte past the end. -/
theorem test_ldi_past_the_end : ended (after (at' 10 [] [] 0 [0x0F, 0xF9, 3, 0, 0, 0, 0, 0, 0, 1, 0, 0, 0, 0, 0, 0, 0])) =
    (.faulted, some ⟨.outOfBounds 0x3F9 8, 0⟩, 0) := by decide

/-- V-ALU-4. -/
theorem test_add_1 : aluEnd 0x10 0x1FF 0x1FF = (some 0xFE, 25, .running) := by decide

/-- V-ALU-3. -/
theorem test_add_2 : aluEnd 0x13 0xFFFFFFFFFFFFFFFF 1 = (some 0, 25, .running) := by decide

/-- V-ALU-6. -/
theorem test_sub_1 : aluEnd 0x14 0 1 = (some 0xFF, 25, .running) := by decide

/-- V-ALU-8. -/
theorem test_sub_2 : aluEnd 0x17 0x8000000000000000 1 = (some 0x7FFFFFFFFFFFFFFF, 25, .running) := by decide

/-- V-ALU-11. -/
theorem test_mul_1 : aluEnd 0x19 0xFFFF 0xFFFF = (some 1, 25, .running) := by decide

/-- V-ALU-14. -/
theorem test_mul_2 : aluEnd 0x1B 0xFFFFFFFF 0xFFFFFFFF = (some 0xFFFFFFFE00000001, 25, .running) := by decide

/-- V-ALU-16. -/
theorem test_and_1 : aluEnd 0x1D 0xF0F0 0xFF0 = (some 0xF0, 25, .running) := by decide

/-- V-ALU-17. -/
theorem test_and_2 : aluEnd 0x1F 0xFFFFFFFFFFFFFFFF 0x123456789 = (some 0x123456789, 25, .running) := by decide

/-- V-ALU-18. -/
theorem test_or_1 : aluEnd 0x21 0xF000 0xF = (some 0xF00F, 25, .running) := by decide

/-- V-ALU-19. -/
theorem test_or_2 : aluEnd 0x20 0xABCD 0 = (some 0xCD, 25, .running) := by decide

/-- V-ALU-20. -/
theorem test_xor_1 : aluEnd 0x24 0xFF 0xF = (some 0xF0, 25, .running) := by decide

/-- V-ALU-21. -/
theorem test_xor_2 : aluEnd 0x27 0x5A5A 0x5A5A = (some 0, 25, .running) := by decide

/-- V-ALU-27. -/
theorem test_shl_1 : aluEnd 0x29 1 0xFFFF = (some 0x8000, 25, .running) := by decide

/-- V-ALU-28. -/
theorem test_shl_2 : aluEnd 0x2A 1 0x100000021 = (some 2, 25, .running) := by decide

/-- V-ALU-30. -/
theorem test_shr_1 : aluEnd 0x2C 0x81 8 = (some 0x81, 25, .running) := by decide

/-- V-ALU-31. -/
theorem test_shr_2 : aluEnd 0x2D 0x8000 0xF = (some 1, 25, .running) := by decide

/-- V-ALU-35. -/
theorem test_sar_1 : aluEnd 0x30 0x80 7 = (some 0xFF, 25, .running) := by decide

/-- V-ALU-41. -/
theorem test_sar_2 : aluEnd 0x33 0x4000000000000000 0x3E = (some 1, 25, .running) := by decide

/-- V-BR-3. -/
theorem test_jeq_1 : step (branchStart 0x38 0x100 0x200) = .next ((branchStart 0x38 0x100 0x200).withPc 0x300) := by
  rfl

/-- V-BR-2. -/
theorem test_jeq_2 : step (branchStart 0x3B 1 2) = .next ((branchStart 0x3B 1 2).withPc 0x119) := by
  rfl

/-- V-BR-6. -/
theorem test_jne_1 : step (branchStart 0x3D 0x10001 0x20001) = .next ((branchStart 0x3D 0x10001 0x20001).withPc 0x119) := by
  rfl

/-- V-BR-4. -/
theorem test_jne_2 : step (branchStart 0x3F 4 0) = .next ((branchStart 0x3F 4 0).withPc 0x300) := by
  rfl

/-- V-BR-8. -/
theorem test_jltu_1 : step (branchStart 0x40 0xFF 0) = .next ((branchStart 0x40 0xFF 0).withPc 0x119) := by
  rfl

/-- V-BR-9. -/
theorem test_jltu_2 : step (branchStart 0x42 1 0xFFFFFFFF) = .next ((branchStart 0x42 1 0xFFFFFFFF).withPc 0x300) := by
  rfl

/-- V-BR-13. -/
theorem test_jlts_1 : step (branchStart 0x44 0xFF 0) = .next ((branchStart 0x44 0xFF 0).withPc 0x300) := by
  rfl

/-- V-BR-18. -/
theorem test_jlts_2 : step (branchStart 0x46 0x7FFFFFFF 0x80000000) = .next ((branchStart 0x46 0x7FFFFFFF 0x80000000).withPc 0x119) := by
  rfl

/-- V-BR-19: the target is not checked at the jump. -/
theorem test_jmp : ended (after (at' 10 [] [] 0 [0x34, 0, 4, 0, 0, 0, 0, 0, 0])) = (.running, none, 0x400) := by decide

/-- V-BR-20: the zero-extended low byte. -/
theorem test_jmpr_narrow : (after (at' 10 [0x1234] [] 0 [0x48, 0, 0, 0, 0, 0, 0, 0, 0x80])).pc = 0x34 := by decide

/-- V-BR-23. -/
theorem test_jmpr_bad_register : ended (after (at' 10 [0, 0] [] 0 [0x4B, 5, 0, 0, 0, 0, 0, 0, 0x80])) =
    (.faulted, some ⟨.invalidRegister 5, 0⟩, 0) := by decide

/-! ### Operand modes, fetch and fault priority -/

/-- V-OAR-6: one hop through the 8-byte pointer. -/
theorem test_memory_indirect : (after (at' 10 [0, 0] (Memory.writeBytes (Memory.writeBytes [] 0x200 [0, 3]) 0x300 [0xFE, 0xCA]) 0
    [0x0B, 1, 0, 0, 0, 0, 0, 0, 0x80, 0, 2, 0, 0, 0, 0, 0, 0x40])).regs = [0, 0xCAFE] := by decide

/-- V-OAR-17: no wrap in the bounds check. -/
theorem test_bounds_do_not_wrap : ended (after (at' 10 [0xFFFFFFFFFFFFFFF9] [] 0
    [0x0B, 0, 0, 0, 0, 0, 0, 0, 0x80, 0, 0, 0, 0, 0, 0, 0, 0xC0])) =
    (.faulted, some ⟨.outOfBounds 0xFFFFFFFFFFFFFFF9 8, 0⟩, 0) := by decide

/-- V-OAR-18: the pointer is the whole register, whatever the width. -/
theorem test_pointer_is_the_whole_register : ended (after (at' 10 [0x0100000000000180, 0] [] 0
    [0x08, 1, 0, 0, 0, 0, 0, 0, 0x80, 0, 0, 0, 0, 0, 0, 0, 0xC0])) =
    (.faulted, some ⟨.outOfBounds 0x0100000000000180 1, 0⟩, 0) := by decide

/-- V-FET-5: the opcode check comes before the length check. -/
theorem test_illegal_opcode_first : ended (after (at' 6 [] [] 63 [0xFF])) = (.faulted, some ⟨.invalidOpcode 63 0xFF, 63⟩, 63) := by
  decide

/-- V-FET-6. -/
theorem test_instruction_past_the_end : ended (after (at' 6 [0] [] 50 [0x0F, 0, 0, 0, 0, 0, 0, 0, 0x80, 1])) =
    (.faulted, some ⟨.outOfBounds 50 17, 50⟩, 50) := by decide

/-- V-PRI-1 and V-PRI-2: source a before source b before the destination. -/
theorem test_fault_priority :
    ended (after (at' 10 [0] [] 0 [0x13, 9, 0, 0, 0, 0, 0, 0, 0x80, 8, 0, 0, 0, 0, 0, 0, 0x80, 0xFF, 3, 0, 0, 0, 0, 0, 0])) =
      (.faulted, some ⟨.invalidRegister 8, 0⟩, 0) ∧
    ended (after (at' 10 [0] [] 0 [0x13, 9, 0, 0, 0, 0, 0, 0, 0x80, 0, 0, 0, 0, 0, 0, 0, 0x80, 0xFF, 3, 0, 0, 0, 0, 0, 0])) =
      (.faulted, some ⟨.outOfBounds 0x3FF 8, 0⟩, 0) := by decide

/-- V-OAR-12: the written bytes overlap the pointer, and the round trip fails. -/
theorem test_overlapping_pointer : (writeOperand (at' 10 [] [] 0 []) (.memInd 0) .w8 100).toOption.map
    (fun t => (t.mem.readBytes 0 8, (readOperand t (.memInd 0) .w8).toOption)) =
    some ([0x64, 0, 0, 0, 0, 0, 0, 0], some 0) := by decide

/-! ### Launch, inspection, assembly -/

/-- V-CFG-1 to V-CFG-4. -/
theorem test_launch_refusals :
    launch 64 0 [] [] = .refused (.memExpTooLarge 64) ∧
    launch 6 0 [] (List.replicate 65 0) = .refused (.programTooLong 65 64) ∧
    launch 2 0 [] [1, 2, 3, 4] = .next ⟨2, [], [(0, 1), (1, 2), (2, 3), (3, 4)], 0, .running, none⟩ ∧
    launch 6 2 [0, 0, 0] [] = .refused (.regInitLength 2 3) := ⟨rfl, rfl, rfl, rfl⟩

/-- The final state of P1, in the bytes the inspection vectors look at. -/
def p1End : State := { at' 10 [100, 23, 0, 0] [(0x200, 0x7B)] 60 [] with status := .halted }

/-- V-INS-1 to V-INS-7. -/
theorem test_inspection : [(⟨0x200, .w8, 123⟩ : Check), ⟨0x200, .w1, 123⟩, ⟨0x200, .w2, -1⟩, ⟨0x201, .w4, 0⟩, ⟨0x3FF, .w2, 0⟩,
    ⟨0x200, .w1, 256⟩, ⟨0x200, .w1, -128⟩].map (inspect p1End) =
    [some .pass, some .pass, some .fail, some .pass, some .fail, some .refused, some .fail] := by decide

/-- P1's text assembles to the bytes beside it. -/
theorem test_assemble_p1 :
    assembleText "LDI.8 r0, 100\nLDI.8 r1, 23\nADD.8 [0x200], r0, r1 ; sum\nHALT".toList =
    some [0x0F, 0, 0, 0, 0, 0, 0, 0, 0x80, 0x64, 0, 0, 0, 0, 0, 0, 0,
      0x0F, 1, 0, 0, 0, 0, 0, 0, 0x80, 0x17, 0, 0, 0, 0, 0, 0, 0,
      0x13, 0, 2, 0, 0, 0, 0, 0, 0, 0, 0, 0, 0, 0, 0, 0, 0x80, 1, 0, 0, 0, 0, 0, 0, 0x80, 0x04] := by decide +kernel

/-- Two labels on one line are refused, on two lines they name the same address (log entry 13). -/
theorem test_two_labels : assembleText "a: b: HALT".toList = none ∧
    assembleText "a:\nb: JMP a".toList = some [0x34, 0, 0, 0, 0, 0, 0, 0, 0] := by decide +kernel

/-- A label before its definition, and the two pseudo-instructions (R76, R77). -/
theorem test_assemble_labels :
    assembleText "JMP end\nNOP\nCLR.2 r1\nend: HALT".toList =
    some [0x34, 29, 0, 0, 0, 0, 0, 0, 0, 0x34, 18, 0, 0, 0, 0, 0, 0, 0, 0x0D, 1, 0, 0, 0, 0, 0, 0, 0x80, 0, 0, 0x04] := by
  decide +kernel

/-! ### A state and operands that meet the hypotheses of each statement that has any

Each theorem is named after its obligation. -/

/-- The status an instruction leaves on a concrete state, if it answers a next state. -/
def completed (i : Instr) (s : State) : Option RunStatus :=
  match exec i s with
  | .next t => some t.status
  | .fault _ => none
  | .refused _ => none

theorem test_witness_DecodeOfEncodeIsTheInstruction :
    (Instr.sar .w1 (.mem (2 ^ 62 - 1)) (.regInd 0) (.memInd (2 ^ 62 - 1))).wellFormed = true := by decide

theorem test_witness_EncodeOfDecodeIsTheBytes :
    decode [0x4B, 3, 0, 0, 0, 0, 0, 0, 0x80, 0xEE] = .ok (.jmpr .w8 (.reg 3), [0xEE]) := by decide

/-- The ends of every range of illegal bytes, at the bank's last address, and the legal bytes beside them. -/
theorem test_witness_IllegalOpcodeByteFaults :
    (∀ b ∈ ([0x00, 0x03, 0x05, 0x07, 0x35, 0x37, 0x4C, 0xFF] : List Byte),
      (at' 6 [] [] 63 [b]).status = .running ∧ (63 : Word).toNat < (at' 6 [] [] 63 [b]).memSize ∧
      (at' 6 [] [] 63 [b]).mem.read 63 = b ∧
      (b.toNat ≤ 0x03 ∨ (0x05 ≤ b.toNat ∧ b.toNat ≤ 0x07) ∨ (0x35 ≤ b.toNat ∧ b.toNat ≤ 0x37) ∨ 0x4C ≤ b.toNat)) ∧
    ∀ b ∈ ([0x04, 0x08, 0x33, 0x34, 0x38, 0x4B] : List Byte), (opcodeOfByte b).isSome = true := by decide

theorem test_witness_AssembledStatementDecodesBack :
    asmInstr [] 0 (.ldi .w1 (.mem (2 ^ 62 - 1)) (.num 255)) = some (.ldi .w1 (.mem (2 ^ 62 - 1)) 255) ∧
    asmInstr [] 0 (.ldi .w1 (.mem 0) (.num 256)) = none := by decide

theorem test_witness_PseudoInstructions :
    (OperandAddr.mem (2 ^ 62 - 1)).wellFormed = true ∧ (at' 6 [] [] (2 ^ 64 - 10) []).pc.toNat + 9 < 2 ^ 64 := by decide +kernel

theorem test_witness_RegisterFileContract : base.regCount ≤ 2 ∧ 1 < base.regCount := by decide

theorem test_witness_MemoryPorts : ∀ w ∈ [Width.w1, .w2, .w4, .w8],
    (1025 - w.bytes) + w.bytes > base.memSize ∧ (1024 - w.bytes) + w.bytes ≤ base.memSize := by decide

theorem test_witness_ReadInsideWrittenCell :
    (∃ t, memWrite base 0x3F8 .w8 0x1122334455667788 = .ok t) ∧ 6 + Width.w2.bytes ≤ Width.w8.bytes := ⟨⟨_, rfl⟩, by decide⟩

theorem test_witness_ResolveTable :
    1017 + 8 > base.memSize ∧ 1016 + 8 ≤ base.memSize ∧ 2 ≥ base.regCount ∧ 1 < base.regCount ∧
    base.regs[1]? = some 0x200 := by decide

/-- One descriptor of each mode, and each way a resolution faults. -/
theorem test_witness_ReadOperandRule_WriteOperandRule :
    resolve base (.reg 2) = .error (.invalidRegister 2) ∧ resolve base (.regInd 2) = .error (.invalidRegister 2) ∧
    resolve base (.memInd 0x3F9) = .error (.outOfBounds 0x3F9 8) ∧ resolve base (.reg 1) = .ok (.reg 1) ∧
    resolve base (.mem 5) = .ok (.mem 5) ∧ resolve base (.regInd 1) = .ok (.mem 0x200) ∧
    resolve base (.memInd 0x300) = .ok (.mem 0x340) := by decide

/-- Pointers that end right below the pointer's own bytes and begin right above them (0x2F8 and 0x308 at 0x300). -/
theorem test_witness_OperandRoundTrip :
    ((∃ t, writeOperand (at' 10 [] [(0x300, 0xF8), (0x301, 2)] 0 []) (.memInd 0x300) .w8 100 = .ok t) ∧
      pointerAt (at' 10 [] [(0x300, 0xF8), (0x301, 2)] 0 []) 0x300 + Width.w8.bytes ≤ 0x300) ∧
    ((∃ t, writeOperand (at' 10 [] [(0x300, 8), (0x301, 3)] 0 []) (.memInd 0x300) .w8 100 = .ok t) ∧
      0x300 + 8 ≤ pointerAt (at' 10 [] [(0x300, 8), (0x301, 3)] 0 []) 0x300) :=
  ⟨⟨⟨_, rfl⟩, by decide⟩, ⟨⟨_, rfl⟩, by decide⟩⟩

/-- V-FET-8, V-FET-5, V-FET-7 and one byte further (47 and 48 of 64). -/
theorem test_witness_FetchChecksInOrder :
    (64 : Word).toNat + 1 > (at' 6 [] [] 64 []).memSize ∧
    ((63 : Word).toNat + 1 ≤ (at' 6 [] [] 63 [0xFF]).memSize ∧ opcodeOfByte ((at' 6 [] [] 63 [0xFF]).mem.read 63) = none) ∧
    ((47 : Word).toNat + (Opcode.ldi .w8).length ≤ (at' 6 [] [] 47 [0x0F]).memSize ∧
      opcodeOfByte ((at' 6 [] [] 47 [0x0F]).mem.read 47) = some (.ldi .w8)) ∧
    ((48 : Word).toNat + (Opcode.ldi .w8).length > (at' 6 [] [] 48 [0x0F]).memSize ∧
      opcodeOfByte ((at' 6 [] [] 48 [0x0F]).mem.read 48) = some (.ldi .w8)) ∧
    (at' 6 [] [] 64 []).status = .running ∧ fetch (at' 6 [] [] 64 []) = .error (.outOfBounds 64 1) := by decide

/-- V-FET-7: `LDI.8 r0, 1` in the bank's last 17 bytes. -/
def lastLdi : State := at' 6 [0] [] 47 [0x0F, 0, 0, 0, 0, 0, 0, 0, 0x80, 1, 0, 0, 0, 0, 0, 0, 0]

theorem test_witness_StepRunsTheDecodedInstruction :
    lastLdi.status = .running ∧ lastLdi.pc.toNat + 17 ≤ lastLdi.memSize ∧
    decode (lastLdi.mem.readBytes lastLdi.pc.toNat 17) = .ok (.ldi .w8 (.reg 0) 1, []) := by decide

/-- `JMPR.8 r5` where there is one register. -/
def badJmpr : State := at' 6 [0] [] 0 [0x4B, 5, 0, 0, 0, 0, 0, 0, 0x80]

/-- A fetch fault (V-FET-8), and an operand fault, `JMPR.8 r5` with no such register (V-BR-23). -/
theorem test_witness_FaultingStepHasNoOtherEffect :
    ((at' 6 [] [] 64 []).status = .running ∧ fetchDecode (at' 6 [] [] 64 []) = .error (.outOfBounds 64 1) ∧
      (∃ t, step (at' 6 [] [] 64 []) = .next t ∧ t.status = .faulted)) ∧
    (badJmpr.status = .running ∧ fetchDecode badJmpr = .ok (.jmpr .w8 (.reg 5)) ∧
      operandFault badJmpr (.jmpr .w8 (.reg 5)) = some (.invalidRegister 5)) :=
  ⟨⟨rfl, by decide, _, rfl, rfl⟩, by decide⟩

theorem test_witness_EndedRunNeverChanges :
    p1End.status ≠ .running ∧ (takeFault (.invalidRegister 2) base).status ≠ .running := by decide

/-- Each operand in turn is the first to fault, and then none. -/
theorem test_witness_FirstOperandFaultDecidesTheOutcome :
    operandFault base (.add .w8 (.reg 9) (.reg 8) (.mem 0x3FF)) = some (.invalidRegister 8) ∧
    operandFault base (.add .w8 (.reg 9) (.reg 0) (.mem 0x3FF)) = some (.outOfBounds 0x3FF 8) ∧
    operandFault base (.add .w8 (.reg 9) (.reg 0) (.reg 1)) = some (.invalidRegister 9) ∧
    operandFault base (.add .w8 (.reg 1) (.memInd 0x300) (.mem 0x3F8)) = none ∧ operandFault base .halt = none := by decide

theorem test_witness_SequentialAdvanceNeverWraps :
    lastLdi.status = .running ∧ fetchDecode lastLdi = .ok (.ldi .w8 (.reg 0) 1) ∧
    (∃ t, step lastLdi = .next t ∧ t.status ≠ .faulted) ∧ (Instr.ldi .w8 (.reg 0) 1).isTransfer = false :=
  ⟨rfl, by decide, ⟨_, rfl, by decide⟩, rfl⟩

/-- V-SMC-1, where the byte to be written over is 0xFF. -/
def selfModifying : State := at' 6 [7] [] 0 [0x0C, 10, 0, 0, 0, 0, 0, 0, 0, 0x04, 0xFF]

theorem test_witness_WrittenHaltIsFetchedNext :
    selfModifying.status = .running ∧ fetchDecode selfModifying = .ok (.ldi .w1 (.mem 10) 0x04) ∧
    locationOf selfModifying (.mem 10) = .mem (selfModifying.pc.toNat + 10) ∧ accessFault selfModifying (.mem 10) .w1 = none := by
  decide

theorem test_witness_HaltInstruction :
    (at' 6 [] [] 63 [0x04]).status = .running ∧ (63 : Word).toNat < (at' 6 [] [] 63 [0x04]).memSize ∧
    (at' 6 [] [] 63 [0x04]).mem.read 63 = 0x04 ∧
    (∃ t, exec .halt base = .next t ∧ base.status ≠ .halted ∧ t.status = .halted) :=
  ⟨rfl, by decide, by decide, _, rfl, by decide, rfl⟩

theorem test_witness_MovInstruction_LdiInstruction_JmprInstruction :
    accessFault base (.regInd 2) .w8 = some (.invalidRegister 2) ∧ accessFault base (.mem 1017) .w8 = some (.outOfBounds 1017 8) ∧
    accessFault base (.memInd 0x3F9) .w1 = some (.outOfBounds 0x3F9 8) ∧
    accessFault base (.mem 1016) .w8 = none ∧ accessFault base (.reg 1) .w8 = none ∧ accessFault base (.regInd 1) .w8 = none ∧
    accessFault base (.memInd 0x300) .w8 = none := by decide

/-- The hypotheses of `AluRule` for any of the nine operations: each operand first to fault, and none. -/
theorem test_witness_AluRule :
    accessFault base (.reg 2) .w4 = some (.invalidRegister 2) ∧
    (accessFault base (.reg 1) .w4 = none ∧ accessFault base (.mem 1021) .w4 = some (.outOfBounds 1021 4)) ∧
    (accessFault base (.reg 1) .w4 = none ∧ accessFault base (.mem 1020) .w4 = none ∧ accessFault base (.reg 2) .w4 ≠ none) ∧
    (accessFault base (.reg 1) .w4 = none ∧ accessFault base (.mem 1020) .w4 = none ∧ accessFault base (.reg 0) .w4 = none) := by
  decide

/-- The hypotheses of `BranchRule`: the faults, and each condition taken and not taken at width 1 on 0x80 and 0x7F. -/
theorem test_witness_BranchRule :
    let s := at' 10 [0x80, 0x7F] [] 0 []
    let v0 := (operandValue s (.reg 0) .w1).toNat
    let v1 := (operandValue s (.reg 1) .w1).toNat
    accessFault s (.reg 2) .w1 ≠ none ∧ accessFault s (.reg 0) .w1 = none ∧ accessFault s (.reg 1) .w1 = none ∧
    v0 = v0 ∧ v0 ≠ v1 ∧ v1 < v0 ∧ ¬ v0 < v1 ∧ sint 8 v0 < sint 8 v1 ∧ ¬ sint 8 v1 < sint 8 v0 := by decide

theorem test_witness_BadTargetFaultsAtTheNextFetch : base.status = .running ∧ base.memSize ≤ (0x400 : Word).toNat := by decide

theorem test_witness_JmpInstruction_JumpToItselfRunsForever :
    (at' 6 [] [] 32 [0x34, 32]).status = .running ∧
    fetchDecode (at' 6 [] [] 32 [0x34, 32]) = .ok (.jmp (at' 6 [] [] 32 [0x34, 32]).pc) := by decide

theorem test_witness_DataMovementFrame :
    completed (.mov .w8 (.memInd 0x300) (.reg 1)) base = some .running ∧
    completed (.ldi .w8 (.reg 1) 5) base = some .running ∧
    storeLocation base (.mov .w8 (.memInd 0x300) (.reg 1)) = some (.mem 0x340, .w8) := by decide

theorem test_witness_ArithmeticFrame :
    [Instr.add .w8 (.regInd 1) (.reg 0) (.reg 1), .sub .w8 (.regInd 1) (.reg 0) (.reg 1), .mul .w8 (.regInd 1) (.reg 0) (.reg 1),
      .and .w8 (.regInd 1) (.reg 0) (.reg 1), .or .w8 (.regInd 1) (.reg 0) (.reg 1), .xor .w8 (.regInd 1) (.reg 0) (.reg 1),
      .shl .w8 (.regInd 1) (.reg 0) (.reg 1), .shr .w8 (.regInd 1) (.reg 0) (.reg 1),
      .sar .w8 (.regInd 1) (.reg 0) (.reg 1)].all (fun i => completed i base == some .running &&
        storeLocation base i == some (.mem 0x200, .w8)) = true := by decide

theorem test_witness_ControlTransferAndHaltFrame :
    [Instr.jmp 9, .jmpr .w2 (.reg 1), .jeq .w1 (.reg 0) (.reg 1) 9, .jne .w1 (.reg 0) (.reg 1) 9, .jltu .w1 (.reg 0) (.reg 1) 9,
      .jlts .w1 (.reg 0) (.reg 1) 9].all (fun i => completed i base == some .running) = true ∧
    completed .halt base = some .halted := by decide

theorem test_witness_UnnamedRegisterDoesNotMatter :
    ¬ (Instr.mov .w8 (.mem 0x40) (.regInd 1)).names 0 ∧ (∃ t, exec (.mov .w8 (.mem 0x40) (.regInd 1)) base = .next t) :=
  ⟨by unfold Instr.names; decide, _, rfl⟩

theorem test_witness_StepKeepsTheBankCanonical : bankWf base ∧ (∃ t, step base = .next t) := ⟨by decide, _, rfl⟩

/-- A running state whose step faults, and an ended one. -/
theorem test_witness_StepKeepsTheFaultRecordTrue :
    (recordWf (at' 6 [] [] 64 []) ∧ ∃ t, step (at' 6 [] [] 64 []) = .next t ∧ t.status = .faulted) ∧
    (recordWf (takeFault (.invalidRegister 2) base) ∧
      ∃ t, step (takeFault (.invalidRegister 2) base) = .next t ∧ t.status = .faulted) := by
  refine ⟨⟨⟨by decide, fun r h => by cases h⟩, _, rfl, rfl⟩, ⟨⟨by decide, fun r h => ?_⟩, _, rfl, rfl⟩⟩
  cases h
  exact ⟨rfl, by decide, by decide⟩

/-- V-CFG-5, and the empty program. -/
theorem test_witness_EveryLaunchedRunKeepsTheInvariant_LaunchedState :
    launch 10 1 [7] [0x04] = .next ⟨10, [7], [(0, 0x04)], 0, .running, none⟩ ∧
    launch 0 0 [] [] = .next ⟨0, [], [], 0, .running, none⟩ := ⟨rfl, rfl⟩

/-- V-CFG-1, V-CFG-4, V-CFG-2 and V-CFG-3. -/
theorem test_witness_LaunchRefusedExactly :
    64 > 63 ∧ [(0 : Word), 0, 0].length ≠ 2 ∧ (6 ≤ 63 ∧ (List.replicate 65 (0 : Byte)).length > 2 ^ 6) ∧
    (63 ≤ 63 ∧ [(0 : Word), 0].length = 2 ∧ (List.replicate 64 (0 : Byte)).length ≤ 2 ^ 6) := by decide

/-- The limits of a one-byte expected value, and the last and the first address a one-byte check reaches and misses. -/
theorem test_witness_InspectionRule :
    base.status ≠ .halted ∧ p1End.status = .halted ∧
    (-129 : Int) < -(2 ^ (Width.w1.bits - 1)) ∧ (2 : Int) ^ Width.w1.bits ≤ 256 ∧
    -(2 ^ (Width.w1.bits - 1)) ≤ (-128 : Int) ∧ (255 : Int) < 2 ^ Width.w1.bits ∧
    1024 + Width.w1.bytes > p1End.memSize ∧ 1023 + Width.w1.bytes ≤ p1End.memSize := by decide

theorem test_witness_VerdictRule :
    (p1End.status = .halted ∧ ∀ c ∈ [(⟨0x200, .w8, 123⟩ : Check), ⟨0x201, .w4, 0⟩], inspect p1End c = some .pass) ∧
    (p1End.status = .halted ∧ ∃ c ∈ [(⟨0x200, .w8, 123⟩ : Check), ⟨0x200, .w2, -1⟩], inspect p1End c = some .fail) ∧
    (takeFault (.outOfBounds 60 8) base).status = .faulted := by decide

/-- R73: 66 tags, one for each legal opcode byte. -/
theorem test_vmrRef_tags : vmrTags.length = 66 ∧ vmrTags.Nodup := by decide

/-- A catalog of one tag, HALT, spelled by the byte 0x04. -/
def haltOnly : Catalog where
  Tag     := Unit
  tags    := [()]
  decoder := .readByte 0 fun b => if b = 0x04 then .spells ⟨(), [], 1⟩ else .noTag
  effect  := fun _ _ s => effectHalt s

/-- A catalog other than VMR-REF meets the contract; it decodes HALT in a bank's last byte, and answers each of the two faults. -/
theorem test_witness_VmrRefMeetsTheDecoderContract :
    DecoderContract haltOnly ∧ haltOnly.decode 64 [(63, 0x04)] 63 = .ok ⟨(), [], 1⟩ ∧
    haltOnly.decode 64 [] 63 = .error (.invalidOpcode 63 0) ∧ haltOnly.decode 64 [] 64 = .error (.outOfBounds 64 1) := by
  refine ⟨⟨fun _ => List.mem_singleton.2 rfl, fun b => ?_, fun size mem pc d h => ?_, (), fun _ s => ⟨_, rfl, rfl⟩⟩, rfl, rfl, rfl⟩
  · by_cases hb : b = 0x04 <;> simp only [hb, if_true, if_false] <;> trivial
  · by_cases hs : pc.toNat + 1 ≤ size
    · simp only [Catalog.decode, haltOnly, DecodeProgram.run, Nat.add_zero, bankBytes_inside hs, except_bind_ok] at h
      split at h
      · cases h; exact hs
      · rw [DecodeProgram.run, bankBytes_inside hs] at h; cases h
    · simp only [Catalog.decode, haltOnly, DecodeProgram.run, Nat.add_zero, bankBytes_past (Nat.lt_of_not_le hs)] at h
      cases h

theorem test_witness_GenericStepOverAnyCatalog :
    p1End.status ≠ .running ∧ base.status = .running ∧
    (∃ t, catalogStep vmrRef base = .next t ∧ t.status = .faulted) := ⟨by decide, rfl, _, rfl, rfl⟩

end Sys2Proof.Tests
end

namespace Sys2Proof.Machine

/-! ## The generic layer (00_scope.md R2): the step over a catalog -/

/-! ### What a commit can do -/

theorem statusAfter_ne_faulted {s : State} (hs : s.status = .running) (halt : Bool) :
    statusAfter s halt ≠ .faulted := by
  cases halt <;> simp [statusAfter, hs]

/-- An operand write that succeeds leaves the sizes and the status alone. -/
theorem writeOperand_frame {s t : State} {d : OperandAddr} {w : Width} {v : BitVec w.bits}
    (h : writeOperand s d w v = .ok t) :
    t.memExp = s.memExp ∧ t.regCount = s.regCount ∧ t.status = s.status := by
  rw [writeOperand_eq] at h
  cases hf : accessFault s d w with
  | some f => simp [hf] at h
  | none =>
    obtain rfl : placedAt s (locationOf s d) w v = t := by simpa [hf] using h
    simp

/-- A commit that succeeds (R114) keeps both sizes, and the status it leaves is the effect's. -/
theorem commit_frame {s t : State} {e : Effect} (h : commit s e = .ok t) :
    t.memExp = s.memExp ∧ t.regCount = s.regCount ∧ t.status = statusAfter s e.halt := by
  obtain ⟨write, nextPc, halt⟩ := e
  cases write with
  | none =>
    obtain rfl : (s.withPc nextPc).withStatus (statusAfter s halt) = t := by simpa [commit] using h
    simp
  | some r =>
    cases hw : writeOperand s r.dst r.cell.width r.cell.payload with
    | error f => simp [commit, hw] at h
    | ok u =>
      obtain rfl : (u.withPc nextPc).withStatus (statusAfter u halt) = t := by simpa [commit, hw] using h
      obtain ⟨hexp, hcount, hstatus⟩ := writeOperand_frame hw
      simp [hexp, hcount, hstatus, statusAfter]

/-- `finish` takes a fault, or leaves a committed state (R114, R115). -/
theorem finish_cases (s : State) (r : Except Fault Effect) :
    (∃ f, finish s r = .next (takeFault f s)) ∨
    (∃ e t, commit s e = .ok t ∧ finish s r = .next t) := by
  cases r with
  | error f => exact .inl ⟨f, rfl⟩
  | ok e =>
    cases hc : commit s e with
    | error f => exact .inl ⟨f, by simp [finish, hc]⟩
    | ok t => exact .inr ⟨e, t, hc, by simp [finish, hc]⟩

/-! ### What a generic step can do -/

theorem catalogStep_of_running (C : Catalog) {s : State} (hs : s.status = .running) :
    catalogStep C s = finish s (C.decode s.memSize s.mem s.pc >>= fun d => C.effect d.tag d.operands s) := by
  simp only [catalogStep, hs]
  cases C.decode s.memSize s.mem s.pc <;> rfl

theorem catalogStep_of_not_running (C : Catalog) {s : State} (hs : s.status ≠ .running) :
    catalogStep C s = .next s := by
  cases h : s.status with
  | running => exact absurd h hs
  | halted => simp only [catalogStep, h]
  | faulted => simp only [catalogStep, h]

theorem step_of_running {s : State} (hs : s.status = .running) :
    step s = finish s (fetchDecode s >>= fun i => instrEffect i s) := by
  simp only [step, hs]
  cases fetchDecode s with
  | error f => rfl
  | ok i => exact exec_eq_finish i s

theorem step_of_not_running {s : State} (hs : s.status ≠ .running) : step s = .next s := by
  cases h : s.status with
  | running => exact absurd h hs
  | halted => simp only [step, h]
  | faulted => simp only [step, h]

/-- The machine's fetched instruction and VMR-REF's decoded one have the same effect, or fault alike. -/
theorem fetchDecode_instrEffect_eq_vmrRef (s : State) :
    (fetchDecode s >>= fun i => instrEffect i s) =
      vmrRef.decode s.memSize s.mem s.pc >>= fun d => vmrRef.effect d.tag d.operands s := by
  rw [fetchDecode_eq_vmrRef]
  cases vmrRef.decode s.memSize s.mem s.pc <;> rfl

/-- Settles O59: an ended run stays under both steps, and a running one finishes the same effect. -/
theorem stepIsTheGenericStepOfVmrRef : Obligations.StepIsTheGenericStepOfVmrRef := by
  intro s
  by_cases hs : s.status = .running
  · rw [step_of_running hs, catalogStep_of_running vmrRef hs, fetchDecode_instrEffect_eq_vmrRef]
  · rw [step_of_not_running hs, catalogStep_of_not_running vmrRef hs]

/-- Settles O60: a running step takes a fault, which is precise (R115), or commits, which never leaves Faulted; an ended run
stays (R32). -/
theorem genericStepOverAnyCatalog : Obligations.GenericStepOverAnyCatalog := by
  intro C s
  by_cases hs : s.status = .running
  · rw [catalogStep_of_running C hs]
    obtain ⟨f, hf⟩ | ⟨e, t, hc, hf⟩ :=
      finish_cases s (C.decode s.memSize s.mem s.pc >>= fun d => C.effect d.tag d.operands s)
    · exact ⟨takeFault f s, hf, rfl, rfl, fun h => absurd hs h, fun _ _ => ⟨rfl, rfl, rfl, f, rfl⟩⟩
    · obtain ⟨hexp, hcount, hstatus⟩ := commit_frame hc
      exact ⟨t, hf, hexp, hcount, fun h => absurd hs h,
        fun _ h => absurd (hstatus ▸ h) (statusAfter_ne_faulted hs e.halt)⟩
  · exact ⟨s, catalogStep_of_not_running C hs, rfl, rfl, fun _ => rfl, fun h => absurd h hs⟩

end Sys2Proof.Machine

namespace Sys2Proof.Machine

/-! ## The architectural state (10_state.md) -/

/-! ### The register file -/

/-- Settles O10: the two ports are their equations, and `List.set` changes one entry. -/
theorem registerFileContract : Obligations.RegisterFileContract := by
  intro s i v
  constructor
  · intro hi
    have hpast : ¬ i < s.regCount := by omega
    rw [readReg_eq, writeReg_eq, if_neg hpast, if_neg hpast]
    exact ⟨rfl, rfl⟩
  · intro hi
    rw [readReg_eq, writeReg_eq, if_pos hi, if_pos hi]
    have hlen : i < s.regs.length := hi
    exact ⟨⟨s.regs[i], by simp [hlen], by simp [hlen]⟩, _, rfl, by simp [hlen],
      fun k hk => List.getElem?_set_ne hk.symm, rfl⟩

/-! ### Ended runs and sizes -/

theorem runFor_of_not_running {s : State} (hs : s.status ≠ .running) (k : Nat) : runFor k s = s := by
  induction k with
  | zero => rfl
  | succ k ih => simp only [runFor, step_of_not_running hs, ih]

/-- Settles O21: a step of an ended run answers the state itself, so every further step does. -/
theorem endedRunNeverChanges : Obligations.EndedRunNeverChanges :=
  fun _ k hs => ⟨step_of_not_running hs, runFor_of_not_running hs k⟩

/-- Settles O23: the step is the generic step over VMR-REF, which answers and keeps both sizes over every catalog. -/
theorem everyStepAnswersAndKeepsTheSizes : Obligations.EveryStepAnswersAndKeepsTheSizes := by
  intro s
  obtain ⟨t, hstep, hexp, hcount, -⟩ := genericStepOverAnyCatalog vmrRef s
  exact ⟨t, (stepIsTheGenericStepOfVmrRef s).trans hstep, hexp, hcount⟩

/-! ### What a commit can do -/

/-- The operand an effect writes to, with the width it is written at. -/
def Effect.target (e : Effect) : Option (OperandAddr × Width) := e.write.map fun r => (r.dst, r.cell.width)

/-- The fault an effect's write meets (R114). -/
def writeFault (s : State) (e : Effect) : Option Fault := e.target.bind fun p => accessFault s p.1 p.2

/-- The state with an effect's write, if it has one, put in place. -/
def storedBy (s : State) (e : Effect) : State :=
  match e.write with
  | none => s
  | some r => placedAt s (locationOf s r.dst) r.cell.width r.cell.payload

/-- What a commit can do (R114): the fault of its write, or the write, the pc and the status. -/
theorem commit_eq (s : State) (e : Effect) :
    commit s e = match writeFault s e with
      | none => .ok (((storedBy s e).withPc e.nextPc).withStatus (statusAfter s e.halt))
      | some f => .error f := by
  obtain ⟨write, nextPc, halt⟩ := e
  cases write with
  | none => rfl
  | some r =>
    simp only [commit, writeFault, Effect.target, storedBy, Option.map_some, Option.bind_some, writeOperand_eq]
    cases accessFault s r.dst r.cell.width with
    | some f => rfl
    | none => simp [statusAfter]

/-- `finish` takes the result's fault or its write's, or leaves the effect committed (R114, R115). -/
theorem finish_eq_next {s t : State} {r : Except Fault Effect} (h : finish s r = .next t) :
    (∃ f, t = takeFault f s ∧ (r = .error f ∨ ∃ e, r = .ok e ∧ writeFault s e = some f)) ∨
    ∃ e, writeFault s e = none ∧ t = ((storedBy s e).withPc e.nextPc).withStatus (statusAfter s e.halt) := by
  cases r with
  | error f => exact .inl ⟨f, by simpa [finish] using h.symm, .inl rfl⟩
  | ok e =>
    cases hf : writeFault s e with
    | some f => exact .inl ⟨f, by simpa [finish, commit_eq, hf] using h.symm, .inr ⟨e, rfl, hf⟩⟩
    | none => exact .inr ⟨e, hf, by simpa [finish, commit_eq, hf] using h.symm⟩

/-! ### The bank's canonical form -/

/-- A memory access that meets no fault lies in the bank whole (R43). -/
theorem location_in_bank {s : State} {d : OperandAddr} {w : Width} {a : Nat} (hf : accessFault s d w = none)
    (hl : locationOf s d = .mem a) : a + w.bytes ≤ s.memSize := by
  rw [accessFault_eq, Option.or_eq_none_iff, hl] at hf
  simpa [locationFault, boundsFault] using hf.2

/-- A value placed in the bank keeps its canonical form: no byte is written past the checked range. -/
theorem bankWf_placedAt_mem {s : State} {a : Nat} {w : Width} (v : BitVec w.bits) (hs : bankWf s)
    (ha : a + w.bytes ≤ s.memSize) : bankWf (placedAt s (.mem a) w v) := by
  obtain ⟨hwf, hlt⟩ := hs
  refine ⟨Memory.wf_writeBytes a _ hwf, fun c hc => ?_⟩
  obtain ⟨-, hc⟩ | hc := Memory.mem_writeBytes hc
  · rw [leBytes_length] at hc
    exact hc.trans_le ha
  · exact hlt c hc

theorem bankWf_storedBy {s : State} {e : Effect} (hs : bankWf s) (hf : writeFault s e = none) :
    bankWf (storedBy s e) := by
  obtain ⟨_ | ⟨d, w, v⟩, nextPc, halt⟩ := e
  · exact hs
  · change bankWf (placedAt s (locationOf s d) w v)
    cases hl : locationOf s d with
    | reg i => exact hs
    | mem a => exact bankWf_placedAt_mem v hs (location_in_bank hf hl)

/-- Settles O50: a fault leaves the bank alone (R115), and a commit writes inside it (R42, R43). -/
theorem stepKeepsTheBankCanonical : Obligations.StepKeepsTheBankCanonical := by
  intro s t hs hstep
  by_cases hrun : s.status = .running
  · rw [step_of_running hrun] at hstep
    obtain ⟨f, rfl, -⟩ | ⟨e, hf, rfl⟩ := finish_eq_next hstep
    · exact hs
    · exact bankWf_storedBy hs hf
  · obtain rfl : s = t := by simpa [step_of_not_running hrun] using hstep
    exact hs

/-! ### The faults an instruction meets -/

/-- The fault the sources meet first, in field order (R100). -/
def sourceFault (s : State) (i : Instr) : Option Fault := i.sources.findSome? fun p => accessFault s p.1 p.2

theorem sourceFault_two {s : State} {i : Instr} {a b : OperandAddr} {w : Width} (h : i.sources = [(a, w), (b, w)]) :
    sourceFault s i = (accessFault s a w).or (accessFault s b w) := by
  simp only [sourceFault, h, List.findSome?_cons, List.findSome?_nil]
  cases accessFault s a w <;> cases accessFault s b w <;> rfl

theorem sourceFault_one {s : State} {i : Instr} {a : OperandAddr} {w : Width} (h : i.sources = [(a, w)]) :
    sourceFault s i = accessFault s a w := by
  simp only [sourceFault, h, List.findSome?_cons, List.findSome?_nil]
  cases accessFault s a w <;> rfl

/-- The result `r` is the first source's fault, or an effect that writes to the instruction's destination. -/
def EffectRule (i : Instr) (s : State) (r : Except Fault Effect) : Prop :=
  ∃ e : Effect, e.target = i.destination ∧ r = match sourceFault s i with
      | none => .ok e
      | some f => .error f

theorem aluEffect_rule {i : Instr} {w : Width} {dst a b : OperandAddr} (s : State)
    (f : BitVec w.bits → BitVec w.bits → BitVec w.bits) (hs : i.sources = [(a, w), (b, w)])
    (hd : i.destination = some (dst, w)) : EffectRule i s (aluEffect w f dst a b s) := by
  rw [aluEffect_eq, ← sourceFault_two hs]
  exact ⟨writeEffect s dst w _ 25, hd.symm, rfl⟩

theorem branchEffect_rule {i : Instr} {w : Width} {a b : OperandAddr} {target : Word} (s : State)
    (c : BitVec w.bits → BitVec w.bits → Bool) (hs : i.sources = [(a, w), (b, w)])
    (hd : i.destination = none) : EffectRule i s (branchEffect w c a b target s) := by
  rw [branchEffect_eq, ← sourceFault_two hs]
  exact ⟨jumpEffect _, hd.symm, rfl⟩

/-- Every instruction reads its sources first and computes one effect (R113). -/
theorem instrEffect_rule (i : Instr) (s : State) : EffectRule i s (instrEffect i s) := by
  cases i with
  | halt | ldi | jmp => exact ⟨_, rfl, rfl⟩
  | mov w dst src =>
    refine ⟨writeEffect s dst w (operandValue s src w) 17, rfl, ?_⟩
    rw [sourceFault_one rfl, instrEffect, effectMov, readOperand_eq]
    cases accessFault s src w <;> rfl
  | add | sub | mul | and | or | xor | shl | shr | sar => exact aluEffect_rule s _ rfl rfl
  | jeq | jne | jltu | jlts => exact branchEffect_rule s _ rfl rfl
  | jmpr w src =>
    refine ⟨jumpEffect ((operandValue s src w).setWidth 64), rfl, ?_⟩
    rw [sourceFault_one rfl, instrEffect, effectJmpr, readOperand_eq]
    cases accessFault s src w <;> rfl

/-- The descriptor operands in field order (R70): the destination, if there is one, then the sources. -/
theorem operands_eq (i : Instr) : i.operands = (i.destination.toList ++ i.sources).map Prod.fst := by
  cases i <;> rfl

/-- A fault that an instruction's effect raises, or that its write meets, is one of its operands' (R100). -/
theorem exists_operand_fault {i : Instr} {s : State} {f : Fault}
    (h : instrEffect i s = .error f ∨ ∃ e, instrEffect i s = .ok e ∧ writeFault s e = some f) :
    ∃ d ∈ i.operands, ∃ w, accessFault s d w = some f := by
  obtain ⟨e, htarget, heffect⟩ := instrEffect_rule i s
  cases hsource : sourceFault s i with
  | some x =>
    rw [heffect, hsource] at h
    obtain rfl : x = f := by simpa using h
    obtain ⟨p, hp, hf⟩ := List.exists_of_findSome?_eq_some hsource
    exact ⟨p.1, by rw [operands_eq]; exact List.mem_map_of_mem (by simp [hp]), p.2, hf⟩
  | none =>
    rw [heffect, hsource] at h
    have hwrite : writeFault s e = some f := by simpa using h
    obtain ⟨p, hp, hf⟩ := Option.bind_eq_some_iff.1 hwrite
    exact ⟨p.1, by rw [operands_eq, ← htarget]; exact List.mem_map_of_mem (by simp [hp]), p.2, hf⟩

/-! ### The truth of a fault's cause -/

theorem bytes_mem_recordedWidths (w : Width) : w.bytes ∈ recordedWidths := by cases w <;> decide

theorem length_mem_recordedWidths (o : Opcode) : o.length ∈ recordedWidths := by
  cases o with
  | ldi w => cases w <;> decide
  | _ => simp [Opcode.length, recordedWidths]

/-- A range past the bank is a true cause at every width the rules access or fetch (R181). -/
theorem causeHolds_of_boundsFault {s : State} {a n : Nat} {f : Fault} (h : boundsFault s a n = some f)
    (hn : n ∈ recordedWidths) : causeHolds s f := by
  unfold boundsFault at h
  split at h <;> cases h
  exact ⟨by omega, hn⟩

/-- The fault of an operand whose index fits its field is a true one (R181, R182). -/
theorem causeHolds_of_accessFault {s : State} {d : OperandAddr} {w : Width} {f : Fault} (hd : d.wellFormed = true)
    (h : accessFault s d w = some f) : causeHolds s f := by
  have hw := bytes_mem_recordedWidths w
  obtain ⟨i, r, ind⟩ := d
  have hi : i < 2 ^ 62 := by simpa [OperandAddr.wellFormed] using hd
  cases r <;> cases ind
  · exact causeHolds_of_boundsFault h hw
  · obtain h | ⟨-, h⟩ := Option.or_eq_some_iff.1 h
    · exact causeHolds_of_boundsFault h (by decide)
    · exact causeHolds_of_boundsFault h hw
  · simp only [accessFault] at h
    split at h <;> cases h
    exact ⟨by omega, hi⟩
  · simp only [accessFault] at h
    split at h
    · exact causeHolds_of_boundsFault h hw
    · cases h
      exact ⟨by omega, hi⟩

/-- The fetch's three faults are true ones (R111, R181, R183). -/
theorem causeHolds_of_fetch {s : State} {f : Fault} (h : fetch s = .error f) : causeHolds s f := by
  unfold fetch at h
  split at h
  · cases h
    exact ⟨by omega, by decide⟩
  · split at h
    next hnone =>
      cases h
      exact ⟨rfl, by omega, rfl, hnone⟩
    next o _ =>
      split at h <;> cases h
      exact ⟨by omega, length_mem_recordedWidths o⟩

theorem fetchDecode_error {s : State} {f : Fault} (h : fetchDecode s = .error f) : fetch s = .error f := by
  cases hf : fetch s with
  | error x => simpa [fetchDecode, hf] using h
  | ok p => simp [fetchDecode, hf] at h

/-- What the machine fetches is well-formed: every index fits its field (R67). -/
theorem fetchDecode_wellFormed {s : State} {i : Instr} (h : fetchDecode s = .ok i) : i.wellFormed = true := by
  cases hf : fetch s with
  | error x => simp [fetchDecode, hf] at h
  | ok p =>
    obtain rfl : p.1.build p.2 = i := by simpa [fetchDecode, hf] using h
    exact build_wellFormed _ _

/-- The fault a running step finishes with, raised by the fetch, an operand read or the write, is a true one. -/
theorem causeHolds_of_step_fault {s : State} {f : Fault} {r : Except Fault Effect}
    (hr : r = fetchDecode s >>= fun i => instrEffect i s)
    (h : r = .error f ∨ ∃ e, r = .ok e ∧ writeFault s e = some f) : causeHolds s f := by
  cases hfetch : fetchDecode s with
  | error x =>
    obtain rfl : x = f := by simpa [hr, hfetch] using h
    exact causeHolds_of_fetch (fetchDecode_error hfetch)
  | ok i =>
    rw [hr, hfetch] at h
    obtain ⟨d, hd, w, hf⟩ := exists_operand_fault h
    exact causeHolds_of_accessFault (List.all_eq_true.1 (fetchDecode_wellFormed hfetch) d hd) hf

/-! ### The fault record -/

/-- Taking a true fault leaves a true record: it names the pc, and the files it speaks of are unchanged (R115, R186). -/
theorem recordWf_takeFault {s : State} {f : Fault} (h : causeHolds s f) : recordWf (takeFault f s) := by
  refine ⟨by simp, fun r hr => ?_⟩
  obtain rfl : ⟨f, s.pc⟩ = r := by simpa using hr
  cases f <;> exact ⟨rfl, h⟩

theorem recordWf_of_none {s : State} (hs : s.status ≠ .faulted) (hf : s.fault = none) : recordWf s :=
  ⟨by simp [hs, hf], by simp [hf]⟩

theorem fault_none_of_running {s : State} (hs : recordWf s) (hrun : s.status = .running) : s.fault = none := by
  obtain ⟨hiff, -⟩ := hs
  simpa [hrun] using hiff

theorem storedBy_fault (s : State) (e : Effect) : (storedBy s e).fault = s.fault := by
  unfold storedBy
  split <;> simp

/-- Settles O51: a fault a step takes is true of the state it leaves; a commit of a running step records none. -/
theorem stepKeepsTheFaultRecordTrue : Obligations.StepKeepsTheFaultRecordTrue := by
  intro s t hs hstep
  by_cases hrun : s.status = .running
  · rw [step_of_running hrun] at hstep
    obtain ⟨f, rfl, hf⟩ | ⟨e, -, rfl⟩ := finish_eq_next hstep
    · exact recordWf_takeFault (causeHolds_of_step_fault rfl hf)
    · refine recordWf_of_none (statusAfter_ne_faulted hrun e.halt) ?_
      simp [storedBy_fault, fault_none_of_running hs hrun]
  · obtain rfl : s = t := by simpa [step_of_not_running hrun] using hstep
    exact hs

/-! ### Reset -/

/-- Settles O52: the reset bank is the empty list, and a running state with no record meets the invariant. -/
theorem resetMeetsTheInvariant : Obligations.ResetMeetsTheInvariant :=
  ⟨⟨by decide, recordWf_of_none (by decide) rfl⟩, rfl, rfl, rfl, Memory.read_nil⟩

end Sys2Proof.Machine

namespace Sys2Proof.Machine

/-! ## The memory bank (20_memory.md) -/

/-! ### The bounds check (R43) -/

theorem boundsFault_inside {s : State} {a n : Nat} (h : a + n ≤ s.memSize) : boundsFault s a n = none := if_pos h

theorem boundsFault_past {s : State} {a n : Nat} (h : a + n > s.memSize) :
    boundsFault s a n = some (.outOfBounds a n) := if_neg (by omega)

/-- A write that succeeds lay in the bank whole, and put its bytes there (R42, R43). -/
theorem memWrite_eq_ok {s t : State} {a : Nat} {w : Width} {v : BitVec w.bits} (h : memWrite s a w v = .ok t) :
    a + w.bytes ≤ s.memSize ∧ t = placedAt s (.mem a) w v := by
  rw [memWrite_eq] at h
  by_cases hb : a + w.bytes ≤ s.memSize
  · rw [boundsFault_inside hb] at h
    cases h
    exact ⟨hb, rfl⟩
  · rw [boundsFault_past (by omega)] at h
    cases h

/-! ### The read port (R41) -/

/-- The read port as a Typed Cell is the same read, tagged with its width (R41). -/
theorem mbRead_eq_map (s : State) (w : Width) (a : Nat) :
    mbRead s w a = (memRead s a w).map fun v => ⟨w, v⟩ := by
  unfold mbRead
  cases memRead s a w <;> rfl

/-- The little-endian value of a run of bytes as a sum over its addresses (R44). -/
theorem leValue_readBytes_eq_sum (m : Memory) (a n : Nat) :
    leValue (m.readBytes a n) = ((List.range n).map fun k => (m.read (a + k)).toNat * 2 ^ (8 * k)).sum := by
  induction n generalizing a with
  | zero => rfl
  | succ n ih =>
    have hshift (k : Nat) : (m.read (a + (k + 1))).toNat * 2 ^ (8 * (k + 1)) =
        256 * ((m.read (a + 1 + k)).toNat * 2 ^ (8 * k)) := by
      rw [show a + (k + 1) = a + 1 + k by omega, Nat.mul_succ, pow_add]
      ring
    simp [Memory.readBytes, leValue, ih, List.range_succ_eq_map, Function.comp_def, hshift, List.sum_map_mul_left]

/-- No bit of the bytes read is lost in the payload: `w` bytes fit `8w` bits. -/
theorem valueAt_mem_toNat (s : State) (a : Nat) (w : Width) :
    (valueAt s (.mem a) w).toNat = leValue (s.mem.readBytes a w.bytes) := by
  have h := leValue_readBytes_lt s.mem a w.bytes
  rw [w.pow_bits] at h
  exact Nat.mod_eq_of_lt h

/-- Settles O11: the port is its bounds check, and the payload its bytes' little-endian value, which is the sum. -/
theorem memoryReadPort : Obligations.MemoryReadPort := by
  intro s a w
  rw [mbRead_eq_map, memRead_eq]
  constructor
  · intro h
    rw [boundsFault_past h]
    exact ⟨rfl, rfl⟩
  · intro h
    rw [boundsFault_inside h]
    exact ⟨valueAt s (.mem a) w, rfl, rfl, (valueAt_mem_toNat s a w).trans (leValue_readBytes_eq_sum ..)⟩

/-! ### The write port (R42) -/

/-- Bits `8k+7:8k` of a value as arithmetic (R45). -/
theorem extractLsb'_byte_eq {n : Nat} (v : BitVec n) (k : Nat) :
    v.extractLsb' (8 * k) 8 = BitVec.ofNat 8 (v.toNat / 256 ^ k) := by
  apply BitVec.eq_of_toNat_eq
  rw [BitVec.extractLsb'_toNat, BitVec.toNat_ofNat, Nat.shiftRight_eq_div_pow, pow_mul]
  rfl

/-- Settles O12: inside the written range each byte is the value's, outside it the bank is as before. -/
theorem memoryWritePort : Obligations.MemoryWritePort := by
  intro s a w v
  refine ⟨rfl, fun h => by rw [memWrite_eq, boundsFault_past h], fun h => ⟨placedAt s (.mem a) w v,
    by rw [memWrite_eq, boundsFault_inside h], fun k hk => ?_, fun x hx => ?_, rfl, Memory.wf_writeBytes a _⟩⟩
  · rw [extractLsb'_byte_eq]
    exact Memory.read_writeBytes_inside (leBytes_getElem? _ _ _ hk)
  · exact Memory.read_writeBytes_outside (by rwa [leBytes_length])

/-! ### Reading what was written (R46) -/

/-- A run of bytes read inside a written run is that part of it. -/
theorem Memory.readBytes_writeBytes_inside {m : Memory} {a k n : Nat} {bs : List Byte} (h : k + n ≤ bs.length) :
    (m.writeBytes a bs).readBytes (a + k) n = (bs.drop k).take n := by
  apply List.ext_getElem?
  intro j
  rcases Nat.lt_or_ge j n with hj | hj
  · have hb : bs[k + j]? = some bs[k + j] := List.getElem?_eq_getElem (by omega)
    rw [Memory.readBytes_getElem? _ _ _ _ hj, Nat.add_assoc, Memory.read_writeBytes_inside hb,
      List.getElem?_take_of_lt hj, List.getElem?_drop, hb]
  · rw [List.getElem?_eq_none (by simpa using hj), List.getElem?_eq_none (by simp; omega)]

/-- Bytes `k` to `k + j - 1` of a value are the low `j` bytes of the value shifted down by `k` bytes. -/
theorem leBytes_drop_take {n k j : Nat} (v : Nat) (h : k + j ≤ n) :
    ((leBytes n v).drop k).take j = leBytes j (v / 256 ^ k) := by
  apply List.ext_getElem?
  intro i
  rcases Nat.lt_or_ge i j with hi | hi
  · rw [List.getElem?_take_of_lt hi, List.getElem?_drop, leBytes_getElem? _ _ _ hi,
      leBytes_getElem? _ _ _ (by omega), pow_add, Nat.div_div_eq_div_mul]
  · rw [List.getElem?_eq_none (by simp; omega), List.getElem?_eq_none (by simpa using hi)]

/-- The value at a location inside a placed cell is the cell's bits from there up. -/
theorem valueAt_placedAt_inside (s : State) (a : Nat) {k : Nat} {w w' : Width} (v : BitVec w.bits)
    (h : k + w'.bytes ≤ w.bytes) :
    valueAt (placedAt s (.mem a) w v) (.mem (a + k)) w' = v.extractLsb' (8 * k) w'.bits := by
  apply BitVec.eq_of_toNat_eq
  calc (valueAt (placedAt s (.mem a) w v) (.mem (a + k)) w').toNat
      = leValue ((s.mem.writeBytes a (leBytes w.bytes v.toNat)).readBytes (a + k) w'.bytes) := valueAt_mem_toNat ..
    _ = leValue (leBytes w'.bytes (v.toNat / 256 ^ k)) := by
      rw [Memory.readBytes_writeBytes_inside (by simpa using h), leBytes_drop_take _ h]
    _ = v.toNat / 2 ^ (8 * k) % 2 ^ w'.bits := by rw [leValue_leBytes, w'.pow_bits, pow_mul]; rfl
    _ = (v.extractLsb' (8 * k) w'.bits).toNat := by rw [BitVec.extractLsb'_toNat, Nat.shiftRight_eq_div_pow]

/-- Settles O13: the read lies in the bank because the write did, and its bytes are the cell's from `k` up. -/
theorem readInsideWrittenCell : Obligations.ReadInsideWrittenCell := by
  intro s t a k w w' v hwrite hk
  obtain ⟨hb, rfl⟩ := memWrite_eq_ok hwrite
  have hin : a + k + w'.bytes ≤ (placedAt s (.mem a) w v).memSize := by
    rw [placedAt_memSize]
    omega
  rw [memRead_eq, boundsFault_inside hin, ← valueAt_placedAt_inside s a v hk]
  rfl

/-! ### Self-modification (R56) -/

/-- A legal opcode byte whose instruction lies in the bank whole is fetched and decoded (R111, R112). -/
theorem fetchDecode_eq_build {s : State} {o : Opcode} (hop : opcodeOfByte (s.mem.read s.pc.toNat) = some o)
    (hin : s.pc.toNat + o.length ≤ s.memSize) :
    fetchDecode s = .ok (o.build (s.mem.readBytes s.pc.toNat o.length)) := by
  have hpos := o.length_pos
  have hfetch : fetch s = .ok (o, s.mem.readBytes s.pc.toNat o.length) := by
    rw [fetch, if_neg (by omega), hop]
    exact if_neg (by omega)
  rw [fetchDecode, hfetch]
  rfl

/-- A running step at a HALT byte halts past it and changes no file (R120). -/
theorem step_at_halt {s : State} (hrun : s.status = .running) (hpc : s.pc.toNat < s.memSize)
    (hbyte : s.mem.read s.pc.toNat = 0x04) :
    step s = .next ((s.withPc (s.pc + 1)).withStatus .halted) := by
  have hop : opcodeOfByte (s.mem.read s.pc.toNat) = some .halt := by
    rw [hbyte]
    rfl
  rw [step_of_running hrun, fetchDecode_eq_build hop hpc]
  rfl

/-- A running step of an LDI whose destination does not fault writes the immediate (R131). -/
theorem step_of_ldi {s : State} {w : Width} {dst : OperandAddr} {imm : BitVec w.bits} (hrun : s.status = .running)
    (hfetch : fetchDecode s = .ok (.ldi w dst imm)) (hdst : accessFault s dst w = none) :
    step s = .next (written s dst w imm (advance s (9 + w.bytes))) := by
  rw [step_of_running hrun, hfetch]
  exact (finish_write s dst w imm _).trans (by rw [hdst])

/-- Settles O25: the first step puts the HALT byte at its own next pc, where the second step fetches it. -/
theorem writtenHaltIsFetchedNext : Obligations.WrittenHaltIsFetchedNext := by
  intro s dst hrun hfetch hloc hdst
  have hbank : s.pc.toNat + 10 + 1 ≤ s.memSize := location_in_bank hdst hloc
  have hpc : (s.pc + 10).toNat = s.pc.toNat + 10 := by
    have hsize := s.memSize_le
    rw [BitVec.toNat_add]
    exact Nat.mod_eq_of_lt (by simp; omega)
  have hfirst : step s = .next ((placedAt s (.mem (s.pc.toNat + 10)) .w1 0x04).withPc (s.pc + 10)) := by
    rw [step_of_ldi hrun hfetch hdst, written, hloc]
    rfl
  have hbyte : (placedAt s (.mem (s.pc.toNat + 10)) .w1 0x04).mem.read (s.pc + 10).toNat = 0x04 := by
    rw [hpc]
    exact Memory.read_writeBytes_inside (k := 0) rfl
  have hnext : (s.pc + 10).toNat < s.memSize := by omega
  exact ⟨_, _, hfirst, step_at_halt hrun hnext hbyte, rfl, BitVec.add_assoc s.pc 10 1, rfl⟩

end Sys2Proof.Machine

namespace Sys2Proof

/-! ## The encoding (30_encoding.md) -/

/-! ### The descriptor word (R67) -/

theorem unpackDescriptor_rawIndex (D : Word) : (unpackDescriptor D).rawIndex = D.toNat % 2 ^ 62 := by
  simp [unpackDescriptor]

theorem unpackDescriptor_isRegister (D : Word) : (unpackDescriptor D).isRegister = true ↔ 2 ^ 63 ≤ D.toNat := by
  have hD := D.isLt
  simp only [unpackDescriptor, BitVec.getLsbD, Nat.testBit_eq_decide_div_mod_eq, decide_eq_true_eq]
  omega

theorem unpackDescriptor_isIndirect (D : Word) :
    (unpackDescriptor D).isIndirect = true ↔ D.toNat / 2 ^ 62 % 2 = 1 := by
  simp only [unpackDescriptor, BitVec.getLsbD, Nat.testBit_eq_decide_div_mod_eq, decide_eq_true_eq]

/-- A word is the sum of its two mode bits and its index, which is how a descriptor is packed. -/
@[simp] theorem pack_unpackDescriptor (D : Word) : packDescriptor (unpackDescriptor D) = D := by
  have hD := D.isLt
  apply BitVec.eq_of_toNat_eq
  rw [packDescriptor_toNat (unpackDescriptor_wellFormed D)]
  simp only [unpackDescriptor_rawIndex, unpackDescriptor_isRegister, unpackDescriptor_isIndirect]
  split <;> split <;> omega

/-- Settles O6: the three fields are the word's quotients and remainders, and packing adds them up again. -/
theorem everyDescriptorWordUnpacksAndPacksBack : Obligations.EveryDescriptorWordUnpacksAndPacksBack :=
  fun D => ⟨unpackDescriptor_rawIndex D, unpackDescriptor_isRegister D, unpackDescriptor_isIndirect D,
    unpackDescriptor_wellFormed D, pack_unpackDescriptor D⟩

/-! ### Fields read from encoded bytes (R72) -/

@[simp] theorem fieldWord_zero_wordBytes (b : Byte) (v : Word) (bs : List Byte) :
    fieldWord (b :: (wordBytes v ++ bs)) 0 = v := by
  simp [fieldWord, ofNat_leValue_wordBytes]

/-- A field put in front moves every field one place on. -/
@[simp] theorem fieldWord_succ_wordBytes (b : Byte) (v : Word) (bs : List Byte) (k : Nat) :
    fieldWord (b :: (wordBytes v ++ bs)) (k + 1) = fieldWord (b :: bs) k := by
  have hskip : 1 + 8 * (k + 1) = ((wordBytes v).length + 8 * k) + 1 := by simp; omega
  rw [fieldWord, hskip, List.drop_succ_cons, List.drop_length_add_append, fieldWord, Nat.add_comm 1,
    List.drop_succ_cons]

@[simp] theorem fieldImmediate_leBytes (b : Byte) (v : Word) (w : Width) (imm : BitVec w.bits) (bs : List Byte) :
    fieldImmediate (b :: (wordBytes v ++ (leBytes w.bytes imm.toNat ++ bs))) w = imm := by
  have himm : leValue (leBytes w.bytes imm.toNat) = imm.toNat := by
    rw [leValue_leBytes, w.pow_bits, Nat.mod_eq_of_lt imm.isLt]
  simp [fieldImmediate, himm]

/-- An opcode reads its instruction back from the instruction's encoding (R78). -/
theorem build_encode {i : Instr} (rest : List Byte) (h : i.wellFormed = true) :
    i.opcode.build (encode i ++ rest) = i := by
  have hpack : ∀ d ∈ i.operands, unpackDescriptor (packDescriptor d) = d :=
    fun d hd => unpack_packDescriptor (List.all_eq_true.1 h d hd)
  clear h
  cases i <;>
    simp_all [Instr.operands, encode, Instr.fieldBytes, descriptorBytes, Instr.opcode, Opcode.build, fieldDescriptor]

/-! ### Decoding an encoding -/

theorem encode_length (i : Instr) : (encode i).length = i.length := by
  cases i with
  | halt => exact Laws.EncodedLength.halt.1
  | mov => exact (Laws.EncodedLength.mov ..).1
  | ldi => exact (Laws.EncodedLength.ldi ..).1
  | add => exact (Laws.EncodedLength.add ..).1
  | sub => exact (Laws.EncodedLength.sub ..).1
  | mul => exact (Laws.EncodedLength.mul ..).1
  | and => exact (Laws.EncodedLength.and ..).1
  | or => exact (Laws.EncodedLength.or ..).1
  | xor => exact (Laws.EncodedLength.xor ..).1
  | shl => exact (Laws.EncodedLength.shl ..).1
  | shr => exact (Laws.EncodedLength.shr ..).1
  | sar => exact (Laws.EncodedLength.sar ..).1
  | jmp => exact (Laws.EncodedLength.jmp _).1
  | jeq => exact (Laws.EncodedLength.jeq ..).1
  | jne => exact (Laws.EncodedLength.jne ..).1
  | jltu => exact (Laws.EncodedLength.jltu ..).1
  | jlts => exact (Laws.EncodedLength.jlts ..).1
  | jmpr => exact (Laws.EncodedLength.jmpr ..).1

/-- What the decoder can answer: the opcode's instruction over at least its length, and the bytes past that length. -/
theorem decode_eq_ok_iff {bytes rest : List Byte} {i : Instr} :
    decode bytes = .ok (i, rest) ↔ ∃ b o, bytes.head? = some b ∧ opcodeOfByte b = some o ∧ o.length ≤ bytes.length ∧
      o.build bytes = i ∧ bytes.drop o.length = rest := by
  cases bytes with
  | nil => simp [decode]
  | cons b bs =>
    cases ho : opcodeOfByte b with
    | none => simp [decode, ho]
    | some o => by_cases hl : o.length ≤ bs.length + 1 <;> simp [decode, ho, hl, Nat.not_lt.2, Nat.lt_of_not_le]

/-- Settles O1: the opcode byte names the opcode, the bytes suffice for its length, and its fields read back. -/
theorem decodeOfEncodeIsTheInstruction : Obligations.DecodeOfEncodeIsTheInstruction := by
  intro i rest hwf
  have hlen : (encode i).length = i.opcode.length := encode_length i
  refine decode_eq_ok_iff.2 ⟨i.opcode.byte, i.opcode, rfl, opcodeOfByte_byte _, ?_, build_encode rest hwf, ?_⟩
  · rw [List.length_append]
    omega
  · rw [← hlen, List.drop_left]

/-! ### Encoding what was decoded -/

/-- The value of `n` bytes loses none of them in a word that is `n` bytes wide. -/
theorem leBytes_ofNat_leValue {bs : List Byte} {n m : Nat} (hlen : bs.length = n) (hm : 256 ^ n = 2 ^ m) :
    leBytes n (BitVec.ofNat m (leValue bs)).toNat = bs := by
  subst hlen
  rw [BitVec.toNat_ofNat, Nat.mod_eq_of_lt (hm ▸ leValue_lt bs), leBytes_leValue]

theorem wordBytes_fieldWord {bytes : List Byte} {k : Nat} (h : 9 + 8 * k ≤ bytes.length) :
    wordBytes (fieldWord bytes k) = (bytes.drop (1 + 8 * k)).take 8 :=
  leBytes_ofNat_leValue (by simp; omega) rfl

theorem descriptorBytes_fieldDescriptor {bytes : List Byte} {k : Nat} (h : 9 + 8 * k ≤ bytes.length) :
    descriptorBytes (fieldDescriptor bytes k) = (bytes.drop (1 + 8 * k)).take 8 := by
  rw [descriptorBytes, fieldDescriptor, pack_unpackDescriptor, wordBytes_fieldWord h]

theorem leBytes_fieldImmediate {bytes : List Byte} {w : Width} (h : 9 + w.bytes ≤ bytes.length) :
    leBytes w.bytes (fieldImmediate bytes w).toNat = (bytes.drop 9).take w.bytes :=
  leBytes_ofNat_leValue (by simp; omega) w.pow_bits

/-- Two adjacent runs of bytes are one run. -/
theorem take_append_take_next {bytes : List Byte} {a b m n : Nat} (h : a + m = b) :
    (bytes.drop a).take m ++ (bytes.drop b).take n = (bytes.drop a).take (m + n) := by
  rw [List.take_add, List.drop_drop, h]

/-- The fields of a built instruction are the bytes they were read from, with none left out. -/
theorem fieldBytes_build {o : Opcode} {bytes : List Byte} (h : o.length ≤ bytes.length) :
    (o.build bytes).fieldBytes = (bytes.drop 1).take (o.length - 1) := by
  cases o with
  | halt => rfl
  | ldi w =>
    have hlen : 9 + w.bytes ≤ bytes.length := h
    have hD : 9 ≤ bytes.length := by omega
    simp [Opcode.build, Instr.fieldBytes, Opcode.length, descriptorBytes_fieldDescriptor, hD,
      leBytes_fieldImmediate hlen, take_append_take_next, -List.drop_one]
  | mov | add | sub | mul | and | or | xor | shl | shr | sar | jmp | jeq | jne | jltu | jlts | jmpr =>
    simp only [Opcode.length] at h
    simp [Opcode.build, Instr.fieldBytes, Opcode.length, descriptorBytes_fieldDescriptor, wordBytes_fieldWord,
      Nat.le_trans _ h, take_append_take_next, -List.drop_one]

/-- Settles O2: decoding reads every byte of the instruction, and each field's bytes are its value's. -/
theorem encodeOfDecodeIsTheBytes : Obligations.EncodeOfDecodeIsTheBytes := by
  intro bytes rest i h
  obtain ⟨b, o, hb, ho, hl, rfl, rfl⟩ := decode_eq_ok_iff.1 h
  refine ⟨build_wellFormed o _, ?_⟩
  obtain ⟨bs, rfl⟩ := List.head?_eq_some_iff.1 hb
  obtain ⟨n, hn⟩ : ∃ n, o.length = n + 1 := ⟨o.length - 1, (Nat.sub_add_cancel o.length_pos).symm⟩
  rw [encode, opcode_build, byte_of_opcodeOfByte ho, fieldBytes_build hl, hn]
  simp

/-! ### The seven formats (R70) -/

theorem decode_of_eq_encode {i : Instr} {bytes rest : List Byte} (hwf : i.wellFormed = true)
    (hbytes : bytes = encode i ++ rest) : decode bytes = .ok (i, rest) :=
  hbytes ▸ decodeOfEncodeIsTheInstruction i rest hwf

/-- Settles O4: each row's bytes are the encoding of its instruction, because every field word packs back to itself. -/
theorem formatLayout : Obligations.FormatLayout := by
  intro w D0 D1 D2 imm rest
  and_intros
  all_goals
    apply decode_of_eq_encode
    · simp [Instr.wellFormed, Instr.operands, unpackDescriptor_wellFormed]
    · simp [encode, Opcode.byte, Instr.opcode, Opcode.op, Opcode.wc, Instr.fieldBytes, descriptorBytes]

/-! ### The opcode map (R73, R74) -/

/-- No opcode's byte lies in the four illegal sets (R74), so a byte in one of them names no opcode. -/
theorem opcodeOfByte_eq_none_of_illegal {b : Byte}
    (h : b.toNat ≤ 0x03 ∨ (0x05 ≤ b.toNat ∧ b.toNat ≤ 0x07) ∨ (0x35 ≤ b.toNat ∧ b.toNat ≤ 0x37) ∨ 0x4C ≤ b.toNat) :
    opcodeOfByte b = none := by
  by_contra hsome
  obtain ⟨o, ho⟩ := Option.ne_none_iff_exists'.1 hsome
  rw [← byte_of_opcodeOfByte ho] at h
  cases o with
  | halt | jmp => exact absurd h (by decide)
  | mov w | ldi w | add w | sub w | mul w | and w | or w | xor w | shl w | shr w | sar w | jeq w | jne w | jltu w
  | jlts w | jmpr w => cases w <;> exact absurd h (by decide)

/-- Settles O3: each row's byte is its opcode's, which the map reads back, and no opcode's byte is illegal. -/
theorem opcodeMapRows : Obligations.OpcodeMapRows := by
  refine ⟨?_, opcodeOfByte_byte .halt, rfl, opcodeOfByte_byte .jmp, rfl, fun b => opcodeOfByte_eq_none_of_illegal⟩
  rintro w _ rfl
  exact ⟨opcodeOfByte_byte (.mov w), rfl, opcodeOfByte_byte (.ldi w), rfl, opcodeOfByte_byte (.add w), rfl,
    opcodeOfByte_byte (.sub w), rfl, opcodeOfByte_byte (.mul w), rfl, opcodeOfByte_byte (.and w), rfl,
    opcodeOfByte_byte (.or w), rfl, opcodeOfByte_byte (.xor w), rfl, opcodeOfByte_byte (.shl w), rfl,
    opcodeOfByte_byte (.shr w), rfl, opcodeOfByte_byte (.sar w), rfl, opcodeOfByte_byte (.jeq w), rfl,
    opcodeOfByte_byte (.jne w), rfl, opcodeOfByte_byte (.jltu w), rfl, opcodeOfByte_byte (.jlts w), rfl,
    opcodeOfByte_byte (.jmpr w), rfl⟩

end Sys2Proof

namespace Sys2Proof.Machine

/-! ### Illegal opcode bytes (R74) -/

/-- Settles O7: the fetch reads the byte, finds no opcode, and the running step takes that fault. -/
theorem illegalOpcodeByteFaults : Obligations.IllegalOpcodeByteFaults := by
  rintro s b hrun hpc rfl hillegal
  have hfetch : fetch s = .error (.invalidOpcode s.pc (s.mem.read s.pc.toNat)) := by
    rw [fetch, if_neg (by omega), opcodeOfByte_eq_none_of_illegal hillegal]
  rw [step_of_running hrun, fetchDecode, hfetch]
  rfl

/-! ### The assembler (R76 to R78) -/

theorem asmTarget_num (table : List (Label × Nat)) {n : Nat} (h : n < 2 ^ 64) :
    asmTarget table (.num n) = some (BitVec.ofNat 64 n) := if_pos h

theorem asmLdi_eq_some {w : Width} {dst : OperandAddr} {n : Nat} {i : Instr} (h : asmLdi w dst n = some i) :
    ∃ imm, .ldi w dst imm = i := by
  obtain ⟨-, hi⟩ := Option.ite_none_right_eq_some.1 h
  exact ⟨_, Option.some.inj hi⟩

/-- What the assembler accepts is well formed and has the length its statement is counted at. -/
theorem asmInstr_eq_some {table : List (Label × Nat)} {pc : Nat} {a : AsmInstr} {i : Instr}
    (h : asmInstr table pc a = some i) : i.wellFormed = true ∧ i.length = a.length := by
  obtain ⟨j, hbuilt, hif⟩ := Option.bind_eq_some_iff.1 h
  obtain ⟨hwf, rfl⟩ : j.wellFormed = true ∧ j = i := by simpa using hif
  refine ⟨hwf, ?_⟩
  cases a with
  | halt | mov | jmpr =>
    cases hbuilt
    rfl
  | alu op =>
    cases hbuilt
    cases op <;> rfl
  | ldi w dst imm =>
    obtain ⟨n, -, hldi⟩ := Option.bind_eq_some_iff.1 hbuilt
    obtain ⟨v, rfl⟩ := asmLdi_eq_some hldi
    rfl
  | clr =>
    obtain ⟨v, rfl⟩ := asmLdi_eq_some hbuilt
    rfl
  | jmp | nop =>
    obtain ⟨t, -, rfl⟩ := Option.map_eq_some_iff.1 hbuilt
    rfl
  | branch op =>
    obtain ⟨t, -, rfl⟩ := Option.map_eq_some_iff.1 hbuilt
    cases op <;> rfl

/-- Settles O8: the accepted instruction is well formed, so its encoding decodes back, at the counted length. -/
theorem assembledStatementDecodesBack : Obligations.AssembledStatementDecodesBack := by
  intro table pc a i rest h
  obtain ⟨hwf, hlen⟩ := asmInstr_eq_some h
  exact ⟨(encode_length i).trans hlen, decodeOfEncodeIsTheInstruction i rest hwf⟩

/-- Settles O9: 0 fits every immediate, and the address after a NOP fits a target field, so it does not wrap. -/
theorem pseudoInstructions : Obligations.PseudoInstructions := by
  constructor
  · intro table pc w d hd
    refine ⟨?_, encode_length _⟩
    simp [asmInstr, asmLdi, Instr.wellFormed, Instr.operands, hd]
  · intro table s hs
    have hpc : s.pc + 9 = BitVec.ofNat 64 (s.pc.toNat + 9) := by simp [BitVec.ofNat_add]
    refine ⟨?_, encode_length _, ?_, rfl⟩
    · rw [hpc, asmInstr, asmTarget_num table hs]
      rfl
    · rw [hpc, BitVec.toNat_ofNat, Nat.mod_eq_of_lt hs]

/-! ### The contract of a decoder (R60 to R63) -/

/-- Equal bytes at two addresses are the same run of bytes. -/
theorem Memory.readBytes_eq_readBytes {m m' : Memory} {a a' n : Nat}
    (h : ∀ k, k < n → m'.read (a' + k) = m.read (a + k)) : m'.readBytes a' n = m.readBytes a n := by
  apply List.ext_getElem?
  intro k
  rcases Nat.lt_or_ge k n with hk | hk
  · rw [Memory.readBytes_getElem? _ _ _ _ hk, Memory.readBytes_getElem? _ _ _ _ hk, h k hk]
  · rw [List.getElem?_eq_none (by simpa using hk), List.getElem?_eq_none (by simpa using hk)]

namespace DecodeProgram

variable {Tag : Type} {size size' : Nat} {mem mem' : Memory} {pc pc' : Word}

theorem run_readByte (offset : Nat) (next : Byte → DecodeProgram Tag) :
    (readByte offset next).run size mem pc =
      if pc.toNat + offset + 1 ≤ size then (next (mem.read (pc.toNat + offset))).run size mem pc
      else .error (.outOfBounds (pc.toNat + offset) 1) := by
  split
  next h => rw [run, bankBytes_inside h, except_bind_ok]
  next h => rw [run, bankBytes_past (Nat.lt_of_not_le h), except_bind_error]

theorem run_readBytes (n : Nat) (next : List Byte → DecodeProgram Tag) :
    (readBytes n next).run size mem pc =
      if pc.toNat + n ≤ size then (next (mem.readBytes pc.toNat n)).run size mem pc
      else .error (.outOfBounds pc.toNat n) := by
  split
  next h => rw [run, bankBytes_inside h, except_bind_ok]
  next h => rw [run, bankBytes_past (Nat.lt_of_not_le h), except_bind_error]

theorem run_noTag :
    (noTag : DecodeProgram Tag).run size mem pc =
      .error (if pc.toNat + 1 ≤ size then .invalidOpcode pc (mem.read pc.toNat) else .outOfBounds pc.toNat 1) := by
  split
  next h => rw [run, bankBytes_inside h, except_bind_ok]
  next h => rw [run, bankBytes_past (Nat.lt_of_not_le h), except_bind_error]

/-- What a path that spells an instruction answers is fixed by the instruction's own bytes, in whatever bank and at
whatever pc they stand (R60, R61). -/
theorem run_eq_of_own_bytes {d : Decoded Tag} {p : DecodeProgram Tag} {m : Nat} (hin : pc'.toNat + d.len ≤ size')
    (hbytes : ∀ k, k < d.len → mem'.read (pc'.toNat + k) = mem.read (pc.toNat + k)) (hown : p.readsOwnBytes m)
    (hrun : p.run size mem pc = .ok d) : p.run size' mem' pc' = .ok d := by
  induction p generalizing m with
  | readByte offset next ih =>
    rw [run_readByte] at hrun
    split at hrun
    · obtain ⟨hlen, -⟩ := read_le_len (hown _) hrun
      rw [run_readByte, if_pos (by omega), hbytes offset (by omega)]
      exact ih _ (hown _) hrun
    · cases hrun
  | readBytes n next ih =>
    rw [run_readBytes] at hrun
    split at hrun
    · have hnext := hown _ (Memory.readBytes_length mem pc.toNat n)
      obtain ⟨hlen, -⟩ := read_le_len hnext hrun
      rw [run_readBytes, if_pos (by omega), Memory.readBytes_eq_readBytes fun k hk => hbytes k (by omega)]
      exact ih _ hnext hrun
    · cases hrun
  | spells e => exact hrun
  | noTag =>
    rw [run_noTag] at hrun
    cases hrun

/-- A decoder's fault is a true OutOfBounds at or above the pc, or InvalidOpcode naming the byte at the pc (R61, R62). -/
theorem run_eq_error {p : DecodeProgram Tag} {f : Fault} (hrun : p.run size mem pc = .error f) :
    (∃ a n, f = .outOfBounds a n ∧ pc.toNat ≤ a ∧ a + n > size) ∨
      (f = .invalidOpcode pc (mem.read pc.toNat) ∧ pc.toNat < size) := by
  induction p with
  | readByte offset next ih =>
    rw [run_readByte] at hrun
    split at hrun
    · exact ih _ hrun
    · cases hrun
      exact .inl ⟨_, _, rfl, by omega, by omega⟩
  | readBytes n next ih =>
    rw [run_readBytes] at hrun
    split at hrun
    · exact ih _ hrun
    · cases hrun
      exact .inl ⟨_, _, rfl, le_rfl, by omega⟩
  | spells e => cases hrun
  | noTag =>
    rw [run_noTag] at hrun
    cases hrun
    split
    · exact .inr ⟨rfl, by omega⟩
    · exact .inl ⟨_, _, rfl, le_rfl, by omega⟩

/-- What a decoder answers depends on the bank's bytes from the pc up alone (R60). -/
theorem run_congr (hbytes : ∀ a, pc.toNat ≤ a → a < size → mem'.read a = mem.read a) (p : DecodeProgram Tag) :
    p.run size mem' pc = p.run size mem pc := by
  induction p with
  | readByte offset next ih =>
    rw [run_readByte, run_readByte]
    split
    · rw [hbytes _ (by omega) (by omega), ih]
    · rfl
  | readBytes n next ih =>
    rw [run_readBytes, run_readBytes]
    split
    · rw [Memory.readBytes_congr fun a hle hlt => hbytes a hle (by omega), ih]
    · rfl
  | spells e => rfl
  | noTag =>
    rw [run_noTag, run_noTag]
    split
    · rw [hbytes _ le_rfl (by omega)]
    · rfl

end DecodeProgram

theorem mem_vmrTags (o : Opcode) : o ∈ vmrTags := by
  cases o with
  | halt | jmp => decide
  | mov w | ldi w | add w | sub w | mul w | and w | or w | xor w | shl w | shr w | sar w | jeq w | jne w | jltu w
  | jlts w | jmpr w => cases w <;> decide

/-- The last read on a path that spells is the whole instruction. -/
theorem vmrDecoder_readsOwnBytes : vmrDecoder.readsOwnBytes 0 := by
  intro b
  dsimp only
  split
  · trivial
  · next o _ => exact fun _ _ => ⟨o.length_pos, by simpa using o.length_pos⟩

/-- VMR-REF's decoder answers only instructions that lie in the bank whole: the last read is the whole instruction. -/
theorem vmrDecoder_in_bank {size : Nat} {mem : Memory} {pc : Word} {d : Decoded Opcode}
    (h : vmrDecoder.run size mem pc = .ok d) : pc.toNat + d.len ≤ size := by
  rw [vmrDecoder, DecodeProgram.run_readByte] at h
  split at h
  · split at h
    · rw [DecodeProgram.run_noTag] at h
      cases h
    · rw [DecodeProgram.run_readBytes] at h
      split at h <;> cases h
      assumption
  · cases h

theorem decoderContract_vmrRef : DecoderContract vmrRef where
  all_tags := mem_vmrTags
  own_bytes := vmrDecoder_readsOwnBytes
  in_bank _ _ _ _ := vmrDecoder_in_bank
  halts := ⟨.halt, fun _ s => ⟨_, finish_no_write s _ true, rfl⟩⟩

/-- A decoder that answered at a pc past the bank would answer an instruction of at least one byte inside it (R61). -/
theorem decode_past_bank {C : Catalog} (hC : DecoderContract C) {size : Nat} {mem : Memory} {pc : Word}
    (hpast : size ≤ pc.toNat) : ∃ a n, C.decode size mem pc = .error (.outOfBounds a n) := by
  cases hd : C.decode size mem pc with
  | ok d =>
    have hlen := (DecodeProgram.read_le_len hC.own_bytes hd).2
    have hin := hC.in_bank _ _ _ _ hd
    omega
  | error f =>
    obtain ⟨a, n, rfl, -, -⟩ | ⟨-, hpc⟩ := DecodeProgram.run_eq_error hd
    · exact ⟨a, n, rfl⟩
    · omega

/-- Settles O58: a decoder is a program of port reads, so by induction on it an instruction is fixed by its own bytes, a
fault is one of its reads' or the opcode byte's, and neither depends on a byte below the pc. -/
theorem vmrRefMeetsTheDecoderContract : Obligations.VmrRefMeetsTheDecoderContract := by
  refine ⟨decoderContract_vmrRef, fun C hC size mem pc => ⟨fun d hd => ?_, fun f hf => ?_, decode_past_bank hC⟩⟩
  · exact ⟨(DecodeProgram.read_le_len hC.own_bytes hd).2, hC.in_bank _ _ _ _ hd,
      fun _ _ _ hin hbytes => DecodeProgram.run_eq_of_own_bytes hin hbytes hC.own_bytes hd⟩
  · exact ⟨DecodeProgram.run_eq_error hf, fun _ hbytes => (DecodeProgram.run_congr hbytes _).trans hf⟩

end Sys2Proof.Machine

namespace Sys2Proof.Machine

/-! ## Operand addressing (40_operand_addressing.md) -/

/-! ### Resolution (R91) -/

/-- Settles O14: memory-direct and register-direct compute no address; the indirect rows are the pointer's port, whose checks
are the row's. -/
theorem resolveTable : Obligations.ResolveTable := by
  intro s n
  have hmemInd : resolve s ⟨n, false, true⟩ = memRead s n .w8 >>= fun p => .ok (.mem p.toNat) := rfl
  have hregInd : resolve s ⟨n, true, true⟩ = readReg s n >>= fun p => .ok (.mem p.toNat) := rfl
  refine ⟨rfl, fun h => ?_, fun h => ?_, fun h => if_pos h, fun h => if_neg (Nat.not_le_of_lt h), fun h => ?_, fun p hp => ?_⟩
  · have hport : memRead s n .w8 = .error (.outOfBounds n 8) := ((memoryReadPort s n .w8).1 h).1
    rw [hmemInd, hport, except_bind_error]
  · obtain ⟨p, hport, -, -⟩ := (memoryReadPort s n .w8).2 h
    exact ⟨p, hport, by rw [hmemInd, hport, except_bind_ok]⟩
  · rw [hregInd, ((registerFileContract s n 0).1 h).1, except_bind_error]
  · have hport : readReg s n = .ok p := by rw [readReg, hp]
    rw [hregInd, hport, except_bind_ok]

/-- A descriptor that resolves lies at its location by the rules. -/
theorem resolve_eq_ok {s : State} {d : OperandAddr} {loc : Location} (h : resolve s d = .ok loc) :
    resolveFault s d = none ∧ locationOf s d = loc := by
  rw [resolve_eq] at h
  cases hf : resolveFault s d with
  | some f => simp [hf] at h
  | none => exact ⟨rfl, by simpa [hf] using h⟩

/-- Only a register-direct descriptor lies in a register. -/
theorem eq_reg_of_locationOf {s : State} {d : OperandAddr} {i : Nat} (h : locationOf s d = .reg i) : d = .reg i := by
  obtain ⟨n, r, ind⟩ := d
  cases r <;> cases ind <;> cases h
  rfl

/-- Resolution to a register has checked its index (R94). -/
theorem lt_regCount_of_resolve {s : State} {d : OperandAddr} {i : Nat} (h : resolve s d = .ok (.reg i)) :
    i < s.regCount := by
  obtain ⟨hf, hl⟩ := resolve_eq_ok h
  obtain rfl := eq_reg_of_locationOf hl
  by_contra hi
  simp [resolveFault, OperandAddr.reg, hi] at hf

/-! ### Access through a descriptor (R96, R97) -/

/-- Settles O15: past resolution the read is the register's port or the bank's. -/
theorem readOperandRule : Obligations.ReadOperandRule := by
  intro s d w
  refine ⟨fun f h => ?_, fun i h => ?_, fun a h => ?_⟩ <;> rw [readOperand, h]
  · rfl
  · have hi := lt_regCount_of_resolve h
    refine ⟨s.regs[i]'hi, List.getElem?_eq_getElem hi, ?_⟩
    rw [except_bind_ok, readLocation_eq]
    simp [locationFault, hi, valueAt, List.getD_eq_getElem?_getD, List.getElem?_eq_getElem hi]
  · rfl

/-- Settles O16: past resolution the write is the register's port or the bank's. -/
theorem writeOperandRule : Obligations.WriteOperandRule := by
  intro s d w v
  refine ⟨fun f h => ?_, fun i h => ?_, fun a h => ?_⟩ <;> rw [writeOperand, h]
  · rfl
  · obtain ⟨-, t, hport, hat, hother, hfields⟩ :=
      (registerFileContract s i (v.setWidth 64)).2 (lt_regCount_of_resolve h)
    exact ⟨t, hport, by rw [hat, BitVec.ofNat_toNat], hother, hfields⟩
  · rfl

/-! ### The round trip (R102) -/

/-- A write that succeeds met no fault, and put the value at the descriptor's location. -/
theorem writeOperand_eq_ok {s t : State} {d : OperandAddr} {w : Width} {v : BitVec w.bits}
    (h : writeOperand s d w v = .ok t) : accessFault s d w = none ∧ t = placedAt s (locationOf s d) w v := by
  rw [writeOperand_eq] at h
  cases hf : accessFault s d w with
  | some f => simp [hf] at h
  | none => exact ⟨rfl, by simpa [hf] using h.symm⟩

/-- The checks of an access look at the two sizes and the location alone. -/
theorem accessFault_placedAt (s : State) (loc : Location) {w : Width} (v : BitVec w.bits) (d : OperandAddr) (w' : Width)
    (h : locationOf (placedAt s loc w v) d = locationOf s d) :
    accessFault (placedAt s loc w v) d w' = accessFault s d w' := by
  simp only [accessFault_eq, h, resolveFault, locationFault, boundsFault, placedAt_memSize, placedAt_regCount]

/-- A pointer outside the written bytes still reads the same (R93). -/
theorem pointerAt_placedAt_mem (s : State) {a n : Nat} {w : Width} (v : BitVec w.bits)
    (h : a + w.bytes ≤ n ∨ n + 8 ≤ a) : pointerAt (placedAt s (.mem a) w v) n = pointerAt s n := by
  refine congrArg leValue (Memory.readBytes_congr fun x hlo hhi => Memory.read_writeBytes_outside ?_)
  rw [leBytes_length]
  omega

/-- A write through a descriptor does not move it, unless it is memory-indirect and overwrites its own pointer. -/
theorem locationOf_placedAt (s : State) (d : OperandAddr) {w : Width} (v : BitVec w.bits)
    (h : d.isRegister = false → d.isIndirect = true →
      pointerAt s d.rawIndex + w.bytes ≤ d.rawIndex ∨ d.rawIndex + 8 ≤ pointerAt s d.rawIndex) :
    locationOf (placedAt s (locationOf s d) w v) d = locationOf s d := by
  obtain ⟨n, r, ind⟩ := d
  cases r <;> cases ind
  case false.true => exact congrArg Location.mem (pointerAt_placedAt_mem s v (h rfl rfl))
  all_goals rfl

/-- The value placed at a location inside its file is read back there. -/
theorem valueAt_placedAt_same {s : State} {loc : Location} {w : Width} (v : BitVec w.bits)
    (h : locationFault s loc w = none) : valueAt (placedAt s loc w v) loc w = v := by
  cases loc with
  | mem a =>
    have hinside := valueAt_placedAt_inside s a (k := 0) (w' := w) v (by omega)
    simpa using hinside
  | reg i =>
    have hi : i < s.regs.length := by
      by_contra hi
      simp [locationFault, State.regCount, hi] at h
    have hfits : v.toNat < 2 ^ 64 := v.isLt.trans_le (Nat.pow_le_pow_right (by decide) w.bits_le)
    apply BitVec.eq_of_toNat_eq
    calc (valueAt (placedAt s (.reg i) w v) (.reg i) w).toNat
        = v.toNat % 2 ^ 64 % 2 ^ w.bits := by simp [valueAt, placedAt, hi]
      _ = v.toNat := by rw [Nat.mod_eq_of_lt hfits, Nat.mod_eq_of_lt v.isLt]

/-- Settles O17: the descriptor resolves as before, to the location that holds the value. -/
theorem operandRoundTrip : Obligations.OperandRoundTrip := by
  intro s t d w v hwrite hpointer
  obtain ⟨hf, rfl⟩ := writeOperand_eq_ok hwrite
  have hloc := locationOf_placedAt s d v hpointer
  have hlocation : locationFault s (locationOf s d) w = none := by
    rw [accessFault_eq, Option.or_eq_none_iff] at hf
    exact hf.2
  rw [readOperand_eq, accessFault_placedAt s _ v d w hloc, hf, operandValue, hloc, valueAt_placedAt_same v hlocation]

/-! ### The order of operand faults (R100, R185) -/

theorem finish_ok (s : State) (e : Effect) :
    finish s (.ok e) = .next (match writeFault s e with
      | none => ((storedBy s e).withPc e.nextPc).withStatus (statusAfter s e.halt)
      | some f => takeFault f s) := by
  simp only [finish, commit_eq]
  cases writeFault s e <;> rfl

/-- The operands' first fault is the sources' first or else the destination's, which the effect's write meets. -/
theorem operandFault_eq_or {s : State} {i : Instr} {e : Effect} (h : e.target = i.destination) :
    operandFault s i = (sourceFault s i).or (writeFault s e) := by
  rw [operandFault, List.findSome?_append, writeFault, h, sourceFault]
  cases i.destination with
  | none => rfl
  | some p => simp

/-- What is computed after a read answers only if it does so on the value read. -/
theorem exists_eq_ok_of_bind_eq_ok {α β : Type} {x : Except Fault α} {g : α → Except Fault β} {b : β}
    (h : x >>= g = .ok b) : ∃ v, g v = .ok b := by
  cases x with
  | error f => cases h
  | ok v => exact ⟨v, h⟩

/-- HALT alone ends the run (R120): every other effect, after no read, one or two, leaves the halt bit clear. -/
theorem instrEffect_halt {i : Instr} {s : State} {e : Effect} (h : instrEffect i s = .ok e) :
    e.halt = decide (i = .halt) := by
  cases i with
  | halt | ldi | jmp =>
    cases h
    rfl
  | mov | jmpr =>
    obtain ⟨_, h⟩ := exists_eq_ok_of_bind_eq_ok h
    cases h
    rfl
  | add | sub | mul | and | or | xor | shl | shr | sar | jeq | jne | jltu | jlts =>
    obtain ⟨_, h⟩ := exists_eq_ok_of_bind_eq_ok h
    obtain ⟨_, h⟩ := exists_eq_ok_of_bind_eq_ok h
    cases h
    rfl

/-- Settles O22: the effect raises the sources' first fault, and its write then meets the destination's; an effect that
commits sets the status by its halt bit alone. -/
theorem firstOperandFaultDecidesTheOutcome : Obligations.FirstOperandFaultDecidesTheOutcome := by
  intro i s
  obtain ⟨e, htarget, heffect⟩ := instrEffect_rule i s
  rw [exec_eq_finish, operandFault_eq_or htarget]
  cases hsource : sourceFault s i with
  | some x =>
    rw [heffect, hsource]
    simp [finish_error]
  | none =>
    have hok : instrEffect i s = .ok e := by rw [heffect, hsource]
    rw [hok, finish_ok, Option.none_or]
    refine ⟨fun f hf => by rw [hf], fun hf => ?_⟩
    rw [hf]
    exact ⟨_, rfl, by simp [storedBy_fault], by simp [statusAfter, instrEffect_halt hok]⟩

end Sys2Proof.Machine

namespace Sys2Proof.Machine

/-! ## Fetch and execute (41_fetch_execute.md) -/

/-! ### The fetch (R111) -/

/-- Past the first two checks the fetch answers the whole instruction's bytes, or the third check's fault. -/
theorem fetch_of_opcode {s : State} {o : Opcode} (hpc : s.pc.toNat + 1 ≤ s.memSize)
    (hop : opcodeOfByte (s.mem.read s.pc.toNat) = some o) :
    fetch s = if s.pc.toNat + o.length > s.memSize then .error (.outOfBounds s.pc.toNat o.length)
      else .ok (o, s.mem.readBytes s.pc.toNat o.length) := by
  rw [fetch, if_neg (Nat.not_lt.2 hpc), hop]

/-- A running step takes the fault of its fetch (R115). -/
theorem step_of_fetch_error {s : State} {f : Fault} (hrun : s.status = .running) (h : fetch s = .error f) :
    step s = .next (takeFault f s) := by
  rw [step_of_running hrun, fetchDecode, h]
  rfl

/-- Settles O18: the first two checks are read off the fetch, the third is `fetch_of_opcode`. -/
theorem fetchChecksInOrder : Obligations.FetchChecksInOrder := by
  intro s
  refine ⟨fun hpast => if_pos hpast, fun hpc hillegal => ?_, fun o hpc hop => ⟨fun hpast => ?_, fun hin => ?_⟩,
    fun f hrun hf => step_of_fetch_error hrun hf⟩
  · rw [fetch, if_neg (Nat.not_lt.2 hpc), hillegal]
  · rw [fetch_of_opcode hpc hop, if_pos hpast]
  · rw [fetch_of_opcode hpc hop, if_neg (Nat.not_lt.2 hin)]
    exact ⟨_, rfl, Memory.readBytes_length .., fun k hk => Memory.readBytes_getElem? _ _ _ _ hk⟩

/-- What the machine fetches lies in the bank whole (R111). -/
theorem fetchDecode_in_bank {s : State} {i : Instr} (h : fetchDecode s = .ok i) :
    s.pc.toNat + i.length ≤ s.memSize := by
  cases hf : fetch s with
  | error f => simp [fetchDecode, hf] at h
  | ok p =>
    obtain rfl : p.1.build p.2 = i := by simpa [fetchDecode, hf] using h
    rw [Instr.length, opcode_build]
    unfold fetch at hf
    split at hf
    · cases hf
    · split at hf
      · cases hf
      · split at hf <;> cases hf
        exact Nat.not_lt.1 ‹_›

/-! ### The step (R110 to R114) -/

theorem step_of_fetchDecode {s : State} {i : Instr} (hrun : s.status = .running) (h : fetchDecode s = .ok i) :
    step s = exec i s := by
  rw [step_of_running hrun, h, exec_eq_finish, except_bind_ok]

/-- Bytes of the bank that decode are what the machine fetches: they begin with the instruction's one encoding. -/
theorem fetchDecode_of_decode {s : State} {n : Nat} {i : Instr} {rest : List Byte} (hin : s.pc.toNat + n ≤ s.memSize)
    (h : decode (s.mem.readBytes s.pc.toNat n) = .ok (i, rest)) : fetchDecode s = .ok i := by
  obtain ⟨hwf, hbytes⟩ := encodeOfDecodeIsTheBytes _ _ _ h
  obtain ⟨m, rfl⟩ : ∃ m, n = i.opcode.length + m := by
    have hlen := congrArg List.length hbytes
    rw [List.length_append, Memory.readBytes_length, encode_length] at hlen
    exact ⟨rest.length, hlen.symm⟩
  rw [Memory.readBytes_add] at hbytes
  obtain ⟨hencode, -⟩ := List.append_inj hbytes ((encode_length i).trans (Memory.readBytes_length ..).symm)
  have hbyte : some i.opcode.byte = some (s.mem.read s.pc.toNat) :=
    calc some i.opcode.byte = (s.mem.readBytes s.pc.toNat i.opcode.length)[0]? := by rw [← hencode]; rfl
      _ = some (s.mem.read s.pc.toNat) := Memory.readBytes_getElem? _ _ _ 0 i.opcode.length_pos
  have hop : opcodeOfByte (s.mem.read s.pc.toNat) = some i.opcode := by
    rw [← Option.some.inj hbyte, opcodeOfByte_byte]
  have hbuild := build_encode [] hwf
  rw [List.append_nil] at hbuild
  rw [fetchDecode_eq_build hop (by omega), ← hencode, hbuild]

/-- Settles O19: the decoded instruction is the fetched one. -/
theorem stepRunsTheDecodedInstruction : Obligations.StepRunsTheDecodedInstruction :=
  fun _ _ _ _ hrun hin h => step_of_fetchDecode hrun (fetchDecode_of_decode hin h)

/-- What executing an instruction leaves (R114, R115): a fault taken, or its effect committed. -/
theorem exec_eq_next {i : Instr} {s t : State} (h : exec i s = .next t) :
    (∃ f, t = takeFault f s) ∨ ∃ e, instrEffect i s = .ok e ∧ writeFault s e = none ∧
      t = ((storedBy s e).withPc e.nextPc).withStatus (statusAfter s e.halt) := by
  rw [exec_eq_finish] at h
  cases he : instrEffect i s with
  | error f => exact .inl ⟨f, by simpa [he, finish_error] using h.symm⟩
  | ok e =>
    cases hf : writeFault s e with
    | some f => exact .inl ⟨f, by simpa [he, finish_ok, hf] using h.symm⟩
    | none => exact .inr ⟨e, rfl, hf, by simpa [he, finish_ok, hf] using h.symm⟩

/-- Settles O20: the fetch's fault and the operands' first fault are taken, and a step that commits does not end Faulted. -/
theorem faultingStepHasNoOtherEffect : Obligations.FaultingStepHasNoOtherEffect := by
  intro s hrun
  refine ⟨fun f hf => step_of_fetch_error hrun (fetchDecode_error hf), fun i f hi hf => ?_, fun t ht hfaulted => ?_⟩
  · rw [step_of_fetchDecode hrun hi]
    exact (firstOperandFaultDecidesTheOutcome i s).1 f hf
  · rw [step_of_running hrun] at ht
    obtain ⟨f, rfl, -⟩ | ⟨e, -, rfl⟩ := finish_eq_next ht
    · exact ⟨f, rfl⟩
    · exact absurd hfaulted (statusAfter_ne_faulted hrun e.halt)

/-! ### The sequential advance (R29) -/

/-- Every effect but a control transfer's advances past the instruction. -/
theorem instrEffect_nextPc {i : Instr} {s : State} {e : Effect} (h : instrEffect i s = .ok e)
    (hseq : i.isTransfer = false) : e.nextPc = advance s i.length := by
  cases i with
  | halt | ldi =>
    cases h
    rfl
  | mov =>
    obtain ⟨_, h⟩ := exists_eq_ok_of_bind_eq_ok h
    cases h
    rfl
  | add | sub | mul | and | or | xor | shl | shr | sar =>
    obtain ⟨_, h⟩ := exists_eq_ok_of_bind_eq_ok h
    obtain ⟨_, h⟩ := exists_eq_ok_of_bind_eq_ok h
    cases h
    rfl
  | jmp | jeq | jne | jltu | jlts | jmpr => cases hseq

/-- Inside the bank the advance is exact: `MEM_SIZE` is far below `2^64` (R7). -/
theorem advance_toNat {s : State} {len : Nat} (h : s.pc.toNat + len ≤ s.memSize) :
    (advance s len).toNat = s.pc.toNat + len := by
  have hsize := s.memSize_le
  rw [advance, BitVec.toNat_add, BitVec.toNat_ofNat, Nat.add_mod_mod, Nat.mod_eq_of_lt (by omega)]

/-- Settles O24: the step commits an effect that advances past the instruction, which lies in the bank whole. -/
theorem sequentialAdvanceNeverWraps : Obligations.SequentialAdvanceNeverWraps := by
  intro s t i hrun hi hstep hok hseq
  rw [step_of_fetchDecode hrun hi] at hstep
  obtain ⟨f, rfl⟩ | ⟨e, he, -, rfl⟩ := exec_eq_next hstep
  · exact absurd (takeFault_status f s) hok
  · have hin := fetchDecode_in_bank hi
    have hpc : e.nextPc.toNat = s.pc.toNat + i.length := by rw [instrEffect_nextPc he hseq, advance_toNat hin]
    exact ⟨hpc, hpc.trans_le hin⟩

/-! ### HALT (R120) -/

/-- Settles O26: HALT has no write, and an instruction that does not fault halts only if it is HALT. -/
theorem haltInstruction : Obligations.HaltInstruction := by
  refine ⟨rfl, opcodeOfByte_eq_none_of_illegal (by decide), opcodeOfByte_eq_none_of_illegal (by decide),
    opcodeOfByte_eq_none_of_illegal (by decide), fun s => rfl, fun s hrun hpc hbyte => step_at_halt hrun hpc hbyte,
    fun s t i hexec hs ht => ?_⟩
  obtain ⟨f, rfl⟩ | ⟨e, he, -, rfl⟩ := exec_eq_next hexec
  · cases ht
  · by_contra hi
    have hstatus : statusAfter s e.halt = s.status := by simp [statusAfter, instrEffect_halt he, hi]
    exact hs (hstatus.symm.trans ht)

/-! ### Registers an instruction does not name (R113, R101) -/

theorem withRegs_set_eq_placedAt (s : State) (k : Nat) (v : Word) :
    s.withRegs (s.regs.set k v) = placedAt s (.reg k) .w8 v := by
  simp [placedAt, State.withRegs, Width.bits, Width.bytes]

/-- The descriptor does not name register `k`, as an operand or as a pointer. -/
def avoidsReg (d : OperandAddr) (k : Nat) : Prop := d.isRegister = true → d.rawIndex ≠ k

theorem avoidsReg_of_not_names {i : Instr} {k : Nat} (h : ¬ i.names k) : ∀ d ∈ i.operands, avoidsReg d k :=
  fun d hd hreg hindex => h ⟨d, hd, hreg, hindex⟩

section
variable (s : State) {k : Nat} {w : Width} (v : BitVec w.bits)

theorem regs_getD_placedAt_reg_ne {n : Nat} (h : n ≠ k) :
    (placedAt s (.reg k) w v).regs.getD n 0 = s.regs.getD n 0 := by
  simp [placedAt, List.getElem?_set_ne h.symm]

/-- A descriptor that does not name the register lies where it lay, pointers included. -/
theorem locationOf_placedAt_reg {d : OperandAddr} (h : avoidsReg d k) :
    locationOf (placedAt s (.reg k) w v) d = locationOf s d := by
  obtain ⟨n, r, ind⟩ := d
  cases r <;> cases ind
  case true.true => exact congrArg (fun x => Location.mem x.toNat) (regs_getD_placedAt_reg_ne s v (h rfl))
  all_goals rfl

theorem locationOf_ne_reg {d : OperandAddr} (h : avoidsReg d k) : locationOf s d ≠ .reg k := by
  intro hloc
  obtain rfl := eq_reg_of_locationOf hloc
  exact h rfl rfl

theorem accessFault_placedAt_reg {d : OperandAddr} (h : avoidsReg d k) (w' : Width) :
    accessFault (placedAt s (.reg k) w v) d w' = accessFault s d w' :=
  accessFault_placedAt s _ v d w' (locationOf_placedAt_reg s v h)

theorem valueAt_placedAt_reg {loc : Location} (h : loc ≠ .reg k) (w' : Width) :
    valueAt (placedAt s (.reg k) w v) loc w' = valueAt s loc w' := by
  cases loc with
  | mem a => rfl
  | reg n =>
    have hn : n ≠ k := fun hn => h (congrArg Location.reg hn)
    simp only [valueAt, regs_getD_placedAt_reg_ne s v hn]

theorem readOperand_placedAt_reg {d : OperandAddr} (h : avoidsReg d k) (w' : Width) :
    readOperand (placedAt s (.reg k) w v) d w' = readOperand s d w' := by
  rw [readOperand_eq, readOperand_eq, accessFault_placedAt_reg s v h, operandValue, operandValue,
    locationOf_placedAt_reg s v h, valueAt_placedAt_reg s v (locationOf_ne_reg s h)]

/-- Two cells placed at different locations, one of them a register, may be placed in either order. -/
theorem placedAt_reg_comm {loc : Location} (h : loc ≠ .reg k) {w' : Width} (v' : BitVec w'.bits) :
    placedAt (placedAt s (.reg k) w v) loc w' v' = placedAt (placedAt s loc w' v') (.reg k) w v := by
  cases loc with
  | mem a => rfl
  | reg n =>
    have hn : k ≠ n := fun hn => h (congrArg Location.reg hn.symm)
    simp only [placedAt, List.set_comm _ _ hn]

end

/-- An effect depends on the pc and on the sources' values alone (R113). -/
theorem instrEffect_congr {i : Instr} {s s' : State} (hpc : s'.pc = s.pc)
    (hread : ∀ p ∈ i.sources, readOperand s' p.1 p.2 = readOperand s p.1 p.2) :
    instrEffect i s' = instrEffect i s := by
  have hadvance (len : Nat) : advance s' len = advance s len := by rw [advance, hpc, advance]
  have hwrite (dst : OperandAddr) (w : Width) (v : BitVec w.bits) (len : Nat) :
      writeEffect s' dst w v len = writeEffect s dst w v len := by rw [writeEffect, hadvance, writeEffect]
  cases i with
  | halt => simp only [instrEffect, effectHalt, hadvance]
  | jmp => rfl
  | ldi => simp only [instrEffect, effectLdi, hwrite]
  | mov w dst src =>
    have hsrc := hread (src, w) (by simp [Instr.sources])
    simp only [instrEffect, effectMov, hwrite, hsrc]
  | jmpr w src =>
    have hsrc := hread (src, w) (by simp [Instr.sources])
    simp only [instrEffect, effectJmpr, hsrc]
  | add w dst a b | sub w dst a b | mul w dst a b | and w dst a b | or w dst a b | xor w dst a b | shl w dst a b
  | shr w dst a b | sar w dst a b =>
    have ha := hread (a, w) (by simp [Instr.sources])
    have hb := hread (b, w) (by simp [Instr.sources])
    simp only [instrEffect, effectAdd, effectSub, effectMul, effectAnd, effectOr, effectXor, effectShl, effectShr,
      effectSar, aluEffect, hwrite, ha, hb]
  | jeq w a b | jne w a b | jltu w a b | jlts w a b =>
    have ha := hread (a, w) (by simp [Instr.sources])
    have hb := hread (b, w) (by simp [Instr.sources])
    simp only [instrEffect, effectJeq, effectJne, effectJltu, effectJlts, branchEffect, hadvance, ha, hb]

/-! ### Execution beside a register -/

/-- A write that avoids the register meets the same checks. -/
theorem writeFault_placedAt_reg {e : Effect} {k : Nat} (s : State) {w : Width} (v : BitVec w.bits)
    (h : ∀ p ∈ e.target, avoidsReg p.1 k) : writeFault (placedAt s (.reg k) w v) e = writeFault s e :=
  Option.bind_congr fun p hp => accessFault_placedAt_reg s v (h p hp) p.2

/-- A write that avoids the register commutes with placing a cell in it. -/
theorem storedBy_placedAt_reg {e : Effect} {k : Nat} (s : State) {w : Width} (v : BitVec w.bits)
    (h : ∀ p ∈ e.target, avoidsReg p.1 k) :
    storedBy (placedAt s (.reg k) w v) e = placedAt (storedBy s e) (.reg k) w v := by
  obtain ⟨_ | ⟨dst, cell⟩, nextPc, halt⟩ := e
  · rfl
  · have hdst : avoidsReg dst k := h (dst, cell.width) rfl
    change placedAt (placedAt s (.reg k) w v) (locationOf (placedAt s (.reg k) w v) dst) cell.width cell.payload = _
    rw [locationOf_placedAt_reg s v hdst, placedAt_reg_comm s v (locationOf_ne_reg s hdst)]
    rfl

/-- An effect that is computed writes to the instruction's destination. -/
theorem instrEffect_target {i : Instr} {s : State} {e : Effect} (h : instrEffect i s = .ok e) :
    e.target = i.destination := by
  obtain ⟨e', htarget, hrule⟩ := instrEffect_rule i s
  rw [h] at hrule
  cases hsource : sourceFault s i with
  | some f => simp [hsource] at hrule
  | none =>
    obtain rfl : e = e' := by simpa [hsource] using hrule
    exact htarget

/-- A cell placed in a register the instruction does not name may be placed before it or after it: the sources read the same,
so the effect is the same one, and its write lies elsewhere. -/
theorem exec_placedAt_reg {i : Instr} {s t : State} {k : Nat} {w : Width} (v : BitVec w.bits) (hnames : ¬ i.names k)
    (h : exec i s = .next t) : exec i (placedAt s (.reg k) w v) = .next (placedAt t (.reg k) w v) := by
  have havoid : ∀ p ∈ i.destination.toList ++ i.sources, avoidsReg p.1 k := fun p hp =>
    avoidsReg_of_not_names hnames p.1 (operands_eq i ▸ List.mem_map_of_mem hp)
  have heffect : instrEffect i (placedAt s (.reg k) w v) = instrEffect i s :=
    instrEffect_congr rfl fun p hp => readOperand_placedAt_reg s v (havoid p (List.mem_append_right _ hp)) p.2
  rw [exec_eq_finish] at h
  rw [exec_eq_finish, heffect]
  cases he : instrEffect i s with
  | error f =>
    rw [he, finish_error] at h
    cases h
    rfl
  | ok e =>
    have hwrite : ∀ p ∈ e.target, avoidsReg p.1 k := by
      rw [instrEffect_target he]
      exact fun p hp => havoid p (List.mem_append_left _ (Option.mem_toList.2 hp))
    rw [he, finish_ok] at h
    rw [finish_ok, writeFault_placedAt_reg s v hwrite, storedBy_placedAt_reg s v hwrite]
    cases hf : writeFault s e <;> rw [hf] at h <;> cases h <;> rfl

/-- Settles O49: setting a register is placing a whole word in it. -/
theorem unnamedRegisterDoesNotMatter : Obligations.UnnamedRegisterDoesNotMatter := by
  intro i s t k v hnames hexec
  rw [withRegs_set_eq_placedAt, withRegs_set_eq_placedAt]
  exact exec_placedAt_reg _ hnames hexec

end Sys2Proof.Machine

namespace Sys2Proof.Machine

/-! ## Data movement (42_data_movement.md) -/

/-! ### Instructions with a destination -/

/-- The sources' first fault comes before the destination's (R100, R185). -/
theorem operandFault_of_destination {s : State} {i : Instr} {dst : OperandAddr} {w : Width}
    (h : i.destination = some (dst, w)) : operandFault s i = (sourceFault s i).or (accessFault s dst w) := by
  rw [operandFault, List.findSome?_append, sourceFault, h]
  simp

/-- An effect that writes through a destination without a fault leaves the written state. -/
theorem exec_eq_written {i : Instr} {s : State} {dst : OperandAddr} {w : Width} {v : BitVec w.bits} {len : Nat}
    (heffect : instrEffect i s = .ok (writeEffect s dst w v len)) (hdst : accessFault s dst w = none) :
    exec i s = .next (written s dst w v (advance s len)) := by
  rw [exec_eq_finish, heffect, finish_write, hdst]

/-! ### MOV (R130) -/

theorem instrEffect_mov {w : Width} {dst src : OperandAddr} {s : State} (h : accessFault s src w = none) :
    instrEffect (.mov w dst src) s = .ok (writeEffect s dst w (operandValue s src w) 17) := by
  rw [instrEffect, effectMov, readOperand_eq, h, except_bind_ok]

/-- Settles O27: the source's fault is the first operand fault, the destination's the next; without one the value read is
written. -/
theorem movInstruction : Obligations.MovInstruction := by
  intro w dst src s
  have hfault : operandFault s (.mov w dst src) = (accessFault s src w).or (accessFault s dst w) := by
    rw [operandFault_of_destination rfl, sourceFault_one rfl]
  have htaken := (firstOperandFaultDecidesTheOutcome (.mov w dst src) s).1
  exact ⟨rfl, encode_length _, fun f hsrc => htaken f (by rw [hfault, hsrc, Option.some_or]),
    fun f hsrc hdst => htaken f (by rw [hfault, hsrc, hdst, Option.none_or]),
    fun hsrc hdst => exec_eq_written (instrEffect_mov hsrc) hdst⟩

/-! ### LDI (R131) -/

/-- Settles O28: the destination's fault is the only one; without it the immediate is written. -/
theorem ldiInstruction : Obligations.LdiInstruction := by
  intro w dst imm s
  have hfault : operandFault s (.ldi w dst imm) = accessFault s dst w := operandFault_of_destination rfl
  exact ⟨rfl, encode_length _,
    fun f hdst => (firstOperandFaultDecidesTheOutcome (.ldi w dst imm) s).1 f (hfault.trans hdst),
    fun hdst => exec_eq_written rfl hdst⟩

/-! ### What an instruction leaves unchanged (R101, R113, R115) -/

/-- A fault taken changes neither file. -/
theorem filesFrame_takeFault (s : State) (f : Fault) (i : Instr) : filesFrame s (takeFault f s) i :=
  ⟨rfl, rfl, fun _ _ => rfl, fun _ _ => rfl⟩

/-- A cell placed at the location the instruction stores to changes that register, or those bytes, alone. -/
theorem filesFrame_placedAt {s : State} {i : Instr} {loc : Location} {w : Width} (v : BitVec w.bits)
    (h : storeLocation s i = some (loc, w)) : filesFrame s (placedAt s loc w v) i := by
  refine ⟨placedAt_memExp s loc w v, placedAt_regCount s loc w v, fun k hk => ?_, fun a ha => ?_⟩
  · cases loc with
    | mem b => rfl
    | reg n =>
      have hne : n ≠ k := by
        rintro rfl
        exact hk w h
      exact List.getElem?_set_ne hne
  · cases loc with
    | reg n => rfl
    | mem b =>
      have houtside := ha b w h
      exact Memory.read_writeBytes_outside (by rwa [leBytes_length])

/-- The write of an effect goes to the location the instruction stores to. -/
theorem filesFrame_storedBy {s : State} {i : Instr} {e : Effect} (h : e.target = i.destination) :
    filesFrame s (storedBy s e) i := by
  obtain ⟨_ | ⟨dst, cell⟩, nextPc, halt⟩ := e
  · exact ⟨rfl, rfl, fun _ _ => rfl, fun _ _ => rfl⟩
  · have hdestination : i.destination = some (dst, cell.width) := h.symm
    exact filesFrame_placedAt cell.payload (by rw [storeLocation, hdestination, Option.map_some])

/-- Every instruction changes its destination register or the bytes it stores to, and nothing else of the two files. -/
theorem exec_filesFrame {i : Instr} {s t : State} (h : exec i s = .next t) : filesFrame s t i := by
  obtain ⟨f, rfl⟩ | ⟨e, he, -, rfl⟩ := exec_eq_next h
  · exact filesFrame_takeFault s f i
  · exact filesFrame_storedBy (instrEffect_target he)

/-- Every instruction but HALT keeps the status and the fault record, or takes a fault and changes nothing else. -/
theorem exec_statusFrame {i : Instr} {s t : State} (h : exec i s = .next t) (hi : i ≠ .halt) : statusFrame s t := by
  obtain ⟨f, rfl⟩ | ⟨e, he, -, rfl⟩ := exec_eq_next h
  · exact .inr ⟨f, rfl⟩
  · exact .inl ⟨by simp [statusAfter, instrEffect_halt he, hi], storedBy_fault s e⟩

/-- Settles O46: the frame every instruction has, with `dst` the destination of both. -/
theorem dataMovementFrame : Obligations.DataMovementFrame := by
  intro w dst src imm i s t hi hexec
  have hmember : i = .mov w dst src ∨ i = .ldi w dst imm := by simpa using hi
  obtain rfl | rfl := hmember
  · exact ⟨exec_filesFrame hexec, exec_statusFrame hexec (by simp), rfl⟩
  · exact ⟨exec_filesFrame hexec, exec_statusFrame hexec (by simp), rfl⟩

end Sys2Proof.Machine

namespace Sys2Proof.Machine

/-! ## Arithmetic and logic (43_arithmetic_logic.md) -/

/-! ### The common form (R140) -/

/-- An instruction that executes the common form with the result function `F` has the rule of `f`, where `f` says what `F` does
to the values of the patterns. -/
theorem aluRule_of_exec_eq {mk : Width → OperandAddr → OperandAddr → OperandAddr → Instr} {op : Nat}
    {f : Nat → Nat → Nat → Nat} (F : ∀ {n : Nat}, BitVec n → BitVec n → BitVec n)
    (hencode : ∀ w dst a b, encode (mk w dst a b) = BitVec.ofNat 8 (op * 4 + codeOfWidth w) ::
      (descriptorBytes dst ++ descriptorBytes a ++ descriptorBytes b))
    (hexec : ∀ w dst a b s, exec (mk w dst a b) s = finish s (aluEffect w F dst a b s))
    (hvalue : ∀ {n : Nat} (va vb : BitVec n), (F va vb).toNat = f n va.toNat vb.toNat) : AluRule mk op f := by
  intro w dst a b s
  refine ⟨hencode w dst a b, by simp [hencode], fun x ha => ?_, fun x ha hb => ?_, fun x ha hb hdst => ?_,
    fun ha hb hdst => ?_⟩
  · rw [hexec, aluEffect_eq, ha, Option.some_or, finish_error]
  · rw [hexec, aluEffect_eq, ha, hb, Option.none_or, finish_error]
  · rw [hexec, aluEffect_eq, ha, hb, Option.none_or, finish_write, hdst]
  · rw [hexec, aluEffect_eq, ha, hb, Option.none_or, finish_write, hdst, ← hvalue, BitVec.ofNat_toNat,
      BitVec.setWidth_eq]
    exact ⟨BitVec.isLt _, rfl⟩

/-! ### The values of the result functions (R141 to R149) -/

theorem fAdd_toNat {n : Nat} (va vb : BitVec n) : (fAdd va vb).toNat = (va.toNat + vb.toNat) % 2 ^ n :=
  BitVec.toNat_add va vb

theorem fSub_toNat {n : Nat} (va vb : BitVec n) : (fSub va vb).toNat = (va.toNat + 2 ^ n - vb.toNat) % 2 ^ n := by
  have hvb : vb.toNat < 2 ^ n := vb.isLt
  have hsum : va.toNat + 2 ^ n - vb.toNat = 2 ^ n - vb.toNat + va.toNat := by omega
  rw [hsum]
  exact BitVec.toNat_sub va vb

theorem fMul_toNat {n : Nat} (va vb : BitVec n) : (fMul va vb).toNat = (va.toNat * vb.toNat) % 2 ^ n :=
  BitVec.toNat_mul va vb

theorem fAnd_toNat {n : Nat} (va vb : BitVec n) : (fAnd va vb).toNat = va.toNat &&& vb.toNat := BitVec.toNat_and va vb

theorem fOr_toNat {n : Nat} (va vb : BitVec n) : (fOr va vb).toNat = va.toNat ||| vb.toNat := BitVec.toNat_or va vb

theorem fXor_toNat {n : Nat} (va vb : BitVec n) : (fXor va vb).toNat = va.toNat ^^^ vb.toNat := BitVec.toNat_xor va vb

theorem fShl_toNat {n : Nat} (va vb : BitVec n) : (fShl va vb).toNat = va.toNat * 2 ^ (vb.toNat % n) % 2 ^ n := by
  rw [fShl, BitVec.toNat_shiftLeft, Nat.shiftLeft_eq, shiftAmount]

theorem fShr_toNat {n : Nat} (va vb : BitVec n) : (fShr va vb).toNat = va.toNat / 2 ^ (vb.toNat % n) := by
  rw [fShr, BitVec.toNat_ushiftRight, Nat.shiftRight_eq_div_pow, shiftAmount]

/-- The two's-complement reading of a pattern's value is the library's (R15). -/
theorem sint_toNat {n : Nat} (v : BitVec n) : sint n v.toNat = v.toInt := by
  rw [sint, BitVec.toInt_eq_msb_cond, BitVec.msb_eq_getLsbD_last, BitVec.testBit_toNat]
  simp

theorem fSar_toNat {n : Nat} (va vb : BitVec n) :
    (fSar va vb).toNat = (Int.fdiv (sint n va.toNat) (2 ^ (vb.toNat % n)) % 2 ^ n).toNat := by
  have hfloor : Int.fdiv va.toInt (2 ^ (vb.toNat % n)) = va.toInt >>> (vb.toNat % n) := by
    rw [Int.fdiv_eq_ediv_of_nonneg _ (by positivity), Int.shiftRight_eq_div_pow]
    norm_num
  rw [sint_toNat, hfloor, fSar, shiftAmount, BitVec.sshiftRight, BitVec.toNat_ofInt]
  norm_num

/-! ### The nine instructions -/

/-- Settles O29: the common form with `fAdd`. -/
theorem addInstruction : Obligations.AddInstruction :=
  aluRule_of_exec_eq fAdd (fun _ _ _ _ => rfl) (fun _ _ _ _ _ => rfl) fAdd_toNat

/-- Settles O30: the common form with `fSub`. -/
theorem subInstruction : Obligations.SubInstruction :=
  aluRule_of_exec_eq fSub (fun _ _ _ _ => rfl) (fun _ _ _ _ _ => rfl) fSub_toNat

/-- Settles O31: the common form with `fMul`. -/
theorem mulInstruction : Obligations.MulInstruction :=
  aluRule_of_exec_eq fMul (fun _ _ _ _ => rfl) (fun _ _ _ _ _ => rfl) fMul_toNat

/-- Settles O32: the common form with `fAnd`. -/
theorem andInstruction : Obligations.AndInstruction :=
  aluRule_of_exec_eq fAnd (fun _ _ _ _ => rfl) (fun _ _ _ _ _ => rfl) fAnd_toNat

/-- Settles O33: the common form with `fOr`. -/
theorem orInstruction : Obligations.OrInstruction :=
  aluRule_of_exec_eq fOr (fun _ _ _ _ => rfl) (fun _ _ _ _ _ => rfl) fOr_toNat

/-- Settles O34: the common form with `fXor`. -/
theorem xorInstruction : Obligations.XorInstruction :=
  aluRule_of_exec_eq fXor (fun _ _ _ _ => rfl) (fun _ _ _ _ _ => rfl) fXor_toNat

/-- Settles O35: the common form with `fShl`. -/
theorem shlInstruction : Obligations.ShlInstruction :=
  aluRule_of_exec_eq fShl (fun _ _ _ _ => rfl) (fun _ _ _ _ _ => rfl) fShl_toNat

/-- Settles O36: the common form with `fShr`. -/
theorem shrInstruction : Obligations.ShrInstruction :=
  aluRule_of_exec_eq fShr (fun _ _ _ _ => rfl) (fun _ _ _ _ _ => rfl) fShr_toNat

/-- Settles O37: the common form with `fSar`, whose arithmetic shift of the signed reading is the division rounded down. -/
theorem sarInstruction : Obligations.SarInstruction :=
  aluRule_of_exec_eq fSar (fun _ _ _ _ => rfl) (fun _ _ _ _ _ => rfl) fSar_toNat

/-! ### The frame (R140) -/

/-- Settles O47: the frame every instruction has; each of the nine has the destination `dst`, and so is not HALT. -/
theorem arithmeticFrame : Obligations.ArithmeticFrame := by
  intro w dst a b i s t hi hexec
  have hdestination : i.destination = some (dst, w) := by
    simp only [List.mem_cons, List.not_mem_nil, or_false] at hi
    obtain rfl | rfl | rfl | rfl | rfl | rfl | rfl | rfl | rfl := hi <;> rfl
  have hne : i ≠ .halt := by
    rintro rfl
    cases hdestination
  exact ⟨exec_filesFrame hexec, exec_statusFrame hexec hne, hdestination⟩

end Sys2Proof.Machine

namespace Sys2Proof.Machine

/-! ## Control transfer (44_control_transfer.md) -/

/-! ### JMP (R161) -/

theorem exec_jmp (target : Word) (s : State) : exec (.jmp target) s = .next (s.withPc target) := rfl

/-- A running jump to its own address commits the pc it had. -/
theorem step_of_jmp_to_itself {s : State} (hrun : s.status = .running) (h : fetchDecode s = .ok (.jmp s.pc)) :
    step s = .next s := by
  rw [step_of_fetchDecode hrun h, exec_jmp]
  rfl

/-- Settles O38: no opcode's byte is one of the three, and a jump's effect is its target alone. -/
theorem jmpInstruction : Obligations.JmpInstruction :=
  ⟨opcodeOfByte_eq_none_of_illegal (by decide), opcodeOfByte_eq_none_of_illegal (by decide),
    opcodeOfByte_eq_none_of_illegal (by decide), fun target s => ⟨rfl, encode_length _, exec_jmp target s⟩,
    fun _ hrun h => step_of_jmp_to_itself hrun h⟩

/-! ### A target outside the bank (R160) -/

/-- Settles O44: the jump commits the target unchecked, and the next fetch meets its first check there. -/
theorem badTargetFaultsAtTheNextFetch : Obligations.BadTargetFaultsAtTheNextFetch := by
  intro s target hrun hpast
  obtain ⟨hfirst, -⟩ := fetchChecksInOrder (s.withPc target)
  have hfetch : fetch (s.withPc target) = .error (.outOfBounds target.toNat 1) := hfirst (Nat.lt_succ_of_le hpast)
  exact ⟨_, _, exec_jmp target s, rfl, hrun, step_of_fetch_error hrun hfetch, rfl, rfl, rfl⟩

/-! ### A jump to its own address (R161, R117) -/

/-- A state that steps to itself is the state after any number of steps. -/
theorem runFor_of_step_eq_self {s : State} (h : step s = .next s) (k : Nat) : runFor k s = s := by
  induction k with
  | zero => rfl
  | succ k ih => simp only [runFor, h, ih]

/-- Settles O45: the state steps to itself, so it is Running for good. -/
theorem jumpToItselfRunsForever : Obligations.JumpToItselfRunsForever := by
  intro s hrun hfetch
  have hstay : ∀ k, runFor k s = s := runFor_of_step_eq_self (step_of_jmp_to_itself hrun hfetch)
  have hforever : RunsForever s := fun k => by rw [hstay k, hrun]
  exact ⟨hforever, fun k => by simp [hforever k], hstay⟩

/-! ### JMPR (R162) -/

theorem instrEffect_jmpr {w : Width} {src : OperandAddr} {s : State} (h : accessFault s src w = none) :
    instrEffect (.jmpr w src) s = .ok (jumpEffect (BitVec.ofNat 64 (operandValue s src w).toNat)) := by
  rw [instrEffect, effectJmpr, readOperand_eq, h, except_bind_ok, BitVec.ofNat_toNat]

/-- Settles O39: the source's fault is the only one; without it the value read is the pc. -/
theorem jmprInstruction : Obligations.JmprInstruction := by
  intro w src s
  have hfault : operandFault s (.jmpr w src) = accessFault s src w := sourceFault_one (i := .jmpr w src) rfl
  exact ⟨rfl, encode_length _,
    fun f hsrc => (firstOperandFaultDecidesTheOutcome (.jmpr w src) s).1 f (hfault.trans hsrc),
    fun hsrc => by rw [exec_eq_finish, instrEffect_jmpr hsrc]; rfl⟩

/-! ### The common form of the conditional transfers (R163) -/

/-- An instruction that executes the common form with the condition `C` has the rule of `taken`, where `taken` says when `C`
holds of the values of the patterns. -/
theorem branchRule_of_exec_eq {mk : Width → OperandAddr → OperandAddr → Word → Instr} {op : Nat}
    {taken : Nat → Nat → Nat → Prop} (C : ∀ {n : Nat}, BitVec n → BitVec n → Bool)
    (hencode : ∀ w a b target, encode (mk w a b target) = BitVec.ofNat 8 (op * 4 + codeOfWidth w) ::
      (descriptorBytes a ++ descriptorBytes b ++ wordBytes target))
    (hexec : ∀ w a b target s, exec (mk w a b target) s = finish s (branchEffect w C a b target s))
    (hcond : ∀ {n : Nat} (va vb : BitVec n), C va vb = true ↔ taken n va.toNat vb.toNat) : BranchRule mk op taken := by
  intro w a b target s
  refine ⟨hencode w a b target, by simp [hencode], fun x ha => ?_, fun x ha hb => ?_,
    fun ha hb => ⟨fun htaken => ?_, fun hnot => ?_⟩⟩
  · rw [hexec, branchEffect_eq, ha, Option.some_or, finish_error]
  · rw [hexec, branchEffect_eq, ha, hb, Option.none_or, finish_error]
  · rw [hexec, branchEffect_eq, ha, hb, Option.none_or, finish_jump, if_pos ((hcond _ _).2 htaken)]
    rfl
  · rw [hexec, branchEffect_eq, ha, hb, Option.none_or, finish_jump, if_neg (mt (hcond _ _).1 hnot)]
    rfl

/-! ### The four conditions (R163 to R166) -/

theorem condEq_iff {n : Nat} (va vb : BitVec n) : condEq va vb = true ↔ va.toNat = vb.toNat := by
  rw [condEq, beq_iff_eq, BitVec.toNat_inj]

theorem condNe_iff {n : Nat} (va vb : BitVec n) : condNe va vb = true ↔ va.toNat ≠ vb.toNat := by
  rw [condNe, bne_iff_ne, BitVec.toNat_ne]

theorem condLtu_iff {n : Nat} (va vb : BitVec n) : condLtu va vb = true ↔ va.toNat < vb.toNat := by
  rw [condLtu, BitVec.ult_iff_lt, BitVec.lt_def]

theorem condLts_iff {n : Nat} (va vb : BitVec n) : condLts va vb = true ↔ sint n va.toNat < sint n vb.toNat := by
  rw [condLts, BitVec.slt_iff_toInt_lt, sint_toNat, sint_toNat]

/-! ### The four instructions -/

/-- Settles O40: the common form with `condEq`. -/
theorem jeqInstruction : Obligations.JeqInstruction :=
  branchRule_of_exec_eq condEq (fun _ _ _ _ => rfl) (fun _ _ _ _ _ => rfl) condEq_iff

/-- Settles O41: the common form with `condNe`. -/
theorem jneInstruction : Obligations.JneInstruction :=
  branchRule_of_exec_eq condNe (fun _ _ _ _ => rfl) (fun _ _ _ _ _ => rfl) condNe_iff

/-- Settles O42: the common form with `condLtu`. -/
theorem jltuInstruction : Obligations.JltuInstruction :=
  branchRule_of_exec_eq condLtu (fun _ _ _ _ => rfl) (fun _ _ _ _ _ => rfl) condLtu_iff

/-- Settles O43: the common form with `condLts`, which compares the two's-complement readings. -/
theorem jltsInstruction : Obligations.JltsInstruction :=
  branchRule_of_exec_eq condLts (fun _ _ _ _ => rfl) (fun _ _ _ _ _ => rfl) condLts_iff

/-! ### The frame (R160, R120) -/

/-- An effect that writes to no operand stores nothing. -/
theorem storedBy_of_target_none {e : Effect} (s : State) (h : e.target = none) : storedBy s e = s := by
  rw [storedBy, Option.map_eq_none_iff.1 h]

/-- An instruction without a destination leaves both files, and with them both sizes, as they are. -/
theorem exec_files_of_destination_none {i : Instr} {s t : State} (h : exec i s = .next t) (hi : i.destination = none) :
    t.memExp = s.memExp ∧ t.regs = s.regs ∧ t.mem = s.mem := by
  obtain ⟨f, rfl⟩ | ⟨e, he, -, rfl⟩ := exec_eq_next h
  · exact ⟨rfl, rfl, rfl⟩
  · rw [storedBy_of_target_none s ((instrEffect_target he).trans hi)]
    exact ⟨rfl, rfl, rfl⟩

/-- Settles O48: none of the seven has a destination; all but HALT keep the status and the record or take a fault, and HALT's
one outcome is its effect. -/
theorem controlTransferAndHaltFrame : Obligations.ControlTransferAndHaltFrame := by
  intro w a b target i s t hi hexec
  have hdestination : i.destination = none := by
    simp only [List.mem_cons, List.not_mem_nil, or_false] at hi
    obtain rfl | rfl | rfl | rfl | rfl | rfl | rfl := hi <;> rfl
  obtain ⟨hexp, hregs, hmem⟩ := exec_files_of_destination_none hexec hdestination
  refine ⟨hexp, hregs, hmem, exec_statusFrame hexec, ?_⟩
  rintro rfl
  cases hexec
  exact ⟨rfl, rfl⟩

end Sys2Proof.Machine

namespace Sys2Proof.Machine

/-! ## Reset and inspection (70_reset_and_hazards.md) -/

/-! ### Launch (R200 to R204) -/

/-- The state after construction and load (R203, R204). -/
def launchState (memExp : Fin 64) (regInit : List Word) (program : List Byte) : State where
  memExp := memExp
  regs   := regInit
  mem    := loadProgram program
  pc     := 0
  status := .running
  fault  := none

/-- What a launch can do (R200 to R204): it starts the launch state, or one of the three checks fails and it is refused. -/
theorem launch_cases (memExp regCount : Nat) (regInit : List Word) (program : List Byte) :
    (∃ hexp : memExp < 64, regInit.length = regCount ∧ program.length ≤ 2 ^ memExp ∧
      launch memExp regCount regInit program = .next (launchState ⟨memExp, hexp⟩ regInit program)) ∨
    ((memExp ≥ 64 ∨ regInit.length ≠ regCount ∨ program.length > 2 ^ memExp) ∧
      ∃ r, launch memExp regCount regInit program = .refused r) := by
  unfold launch
  by_cases hexp : memExp < 64
  · by_cases hregs : regInit.length = regCount
    · by_cases hfits : program.length ≤ 2 ^ memExp
      · rw [dif_pos hexp, if_neg (not_not.2 hregs), if_neg (Nat.not_lt.2 hfits)]
        exact .inl ⟨hexp, hregs, hfits, rfl⟩
      · rw [dif_pos hexp, if_neg (not_not.2 hregs), if_pos (Nat.lt_of_not_le hfits)]
        exact .inr ⟨.inr (.inr (Nat.lt_of_not_le hfits)), _, rfl⟩
    · rw [dif_pos hexp, if_pos hregs]
      exact .inr ⟨.inr (.inl hregs), _, rfl⟩
  · rw [dif_neg hexp]
    exact .inr ⟨.inl (Nat.le_of_not_lt hexp), _, rfl⟩

/-- A launch that succeeds starts the launch state. -/
theorem launch_eq_next {memExp regCount : Nat} {regInit : List Word} {program : List Byte} {s : State}
    (h : launch memExp regCount regInit program = .next s) :
    ∃ hexp : memExp < 64, regInit.length = regCount ∧ program.length ≤ 2 ^ memExp ∧
      launchState ⟨memExp, hexp⟩ regInit program = s := by
  obtain ⟨hexp, hregs, hfits, hstart⟩ | ⟨-, r, hrefused⟩ := launch_cases memExp regCount regInit program
  · exact ⟨hexp, hregs, hfits, by simpa [hstart] using h⟩
  · simp [hrefused] at h

/-- Settles O55: the checks a start has passed and those a refusal has failed exclude each other. -/
theorem launchRefusedExactly : Obligations.LaunchRefusedExactly := by
  intro memExp regCount regInit program
  obtain ⟨hexp, hregs, hfits, hstart⟩ | ⟨hbad, hrefused⟩ := launch_cases memExp regCount regInit program
  · exact ⟨fun hbad => by omega, fun _ _ _ => ⟨_, hstart⟩⟩
  · exact ⟨fun _ => hrefused, fun hexp hregs hfits => by omega⟩

/-! ### The loaded bank (R203) -/

theorem loadProgram_read {program : List Byte} {a : Nat} (h : a < program.length) :
    (loadProgram program).read a = program[a] := by
  have hbyte : (loadProgram program).read (0 + a) = program[a] :=
    Memory.read_writeBytes_inside (List.getElem?_eq_getElem h)
  rwa [Nat.zero_add] at hbyte

theorem loadProgram_read_above {program : List Byte} {a : Nat} (h : program.length ≤ a) :
    (loadProgram program).read a = 0 :=
  Memory.read_writeBytes_outside (.inr (by omega))

/-- The loader writes inside the bank: a program it takes is no longer than that. -/
theorem bankWf_launchState {memExp : Fin 64} {program : List Byte} (regInit : List Word)
    (h : program.length ≤ 2 ^ memExp.val) : bankWf (launchState memExp regInit program) := by
  refine ⟨Memory.wf_writeBytes 0 program ⟨.nil, by simp⟩, fun c hc => ?_⟩
  obtain ⟨-, hlt⟩ | hnil := Memory.mem_writeBytes hc
  · rw [Nat.zero_add] at hlt
    exact hlt.trans_le h
  · exact absurd hnil List.not_mem_nil

/-- An empty program leaves a zero byte, which is illegal, at the launch pc (R74, R203). -/
theorem step_launchState_nil (memExp : Fin 64) (regInit : List Word) :
    step (launchState memExp regInit []) = .next (takeFault (.invalidOpcode 0 0x00) (launchState memExp regInit [])) :=
  illegalOpcodeByteFaults (launchState memExp regInit []) 0x00 rfl (State.memSize_pos _) rfl (by decide)

/-- Settles O54: a launch that succeeds starts the launch state, whose bank is the loader's. -/
theorem launchedState : Obligations.LaunchedState := by
  intro memExp regCount regInit program s hlaunch
  obtain ⟨hexp, hregs, -, rfl⟩ := launch_eq_next hlaunch
  refine ⟨rfl, rfl, rfl, rfl, hregs, fun _ _ => rfl, fun a ha => ?_, fun a ha => loadProgram_read_above ha, ?_⟩
  · exact (List.getElem?_eq_getElem ha).trans (congrArg some (loadProgram_read ha).symm)
  · rintro rfl
    exact step_launchState_nil _ regInit

/-! ### Every run from a launch (R206) -/

/-- What every step keeps holds along the whole run. -/
theorem runFor_keeps {P : State → Prop} (hstep : ∀ s t, P s → step s = .next t → P t) {s : State} (h : P s) (k : Nat) :
    P (runFor k s) := by
  induction k generalizing s with
  | zero => exact h
  | succ k ih =>
    obtain ⟨t, ht, -⟩ := everyStepAnswersAndKeepsTheSizes s
    rw [runFor, ht]
    exact ih (hstep s t h ht)

theorem stateInv_of_step {s t : State} (h : StateInv s) (hstep : step s = .next t) : StateInv t := by
  obtain ⟨hbank, hrecord⟩ := h
  exact ⟨stepKeepsTheBankCanonical s t hbank hstep, stepKeepsTheFaultRecordTrue s t hrecord hstep⟩

/-- Settles O53: the launch state meets the invariant, and every step keeps it. -/
theorem everyLaunchedRunKeepsTheInvariant : Obligations.EveryLaunchedRunKeepsTheInvariant := by
  intro memExp regCount regInit program s k hlaunch
  obtain ⟨hexp, -, hfits, rfl⟩ := launch_eq_next hlaunch
  have hinit : StateInv (launchState ⟨memExp, hexp⟩ regInit program) :=
    ⟨bankWf_launchState regInit hfits, recordWf_of_none (by simp [launchState]) rfl⟩
  exact runFor_keeps (fun _ _ => stateInv_of_step) hinit k

/-! ### The verdict (R211) -/

theorem inspect_of_halted {s : State} (h : s.status = .halted) (c : Check) : inspect s c = some (runCheck s c) := by
  rw [inspect, h]

theorem runVerdict_of_halted {s : State} (h : s.status = .halted) (checks : List Check) :
    runVerdict s checks =
      if ∃ c ∈ checks, inspect s c = some .fail then .fail
      else if ∃ c ∈ checks, inspect s c = some .refused then .noVerdict else .pass := by
  simp [runVerdict, h, inspect_of_halted h]

/-- Settles O57: inspection of a halted run decides its verdict, and a faulted run is not inspected. -/
theorem verdictRule : Obligations.VerdictRule := by
  intro s checks
  refine ⟨fun hs hpass => ?_, fun hs hfail => ?_, fun hs => ?_⟩
  · have hnone : ∀ r, r ≠ .pass → ¬ ∃ c ∈ checks, inspect s c = some r := by
      rintro r hr ⟨c, hc, hinspect⟩
      exact hr (Option.some.inj (hinspect.symm.trans (hpass c hc)))
    rw [runVerdict_of_halted hs, if_neg (hnone _ (by decide)), if_neg (hnone _ (by decide))]
  · rw [runVerdict_of_halted hs, if_pos hfail]
  · rw [runVerdict, hs]

end Sys2Proof.Machine

namespace Sys2Proof.Machine

/-! ### Checks of a final state (R210) -/

theorem inspect_of_not_halted {s : State} (h : s.status ≠ .halted) (c : Check) : inspect s c = none := by
  unfold inspect
  cases hs : s.status with
  | halted => exact absurd hs h
  | running | faulted => rfl

theorem expectedPattern_of_out_of_range {w : Width} {e : Int} (h : e < -(2 ^ (w.bits - 1)) ∨ 2 ^ w.bits ≤ e) :
    expectedPattern w e = none := by
  have hhalf : (0 : Int) < 2 ^ (w.bits - 1) := by positivity
  have hfull : (0 : Int) < 2 ^ w.bits := by positivity
  rw [expectedPattern, if_neg (by omega), if_neg (by omega)]

theorem toNat_ofNat_toNat {n : Nat} {x : Int} (hlo : 0 ≤ x) (hhi : x < 2 ^ n) :
    ((BitVec.ofNat n x.toNat).toNat : Int) = x := by
  have hlt : x.toNat < 2 ^ n := (Int.toNat_lt hlo).2 (by exact_mod_cast hhi)
  rw [BitVec.toNat_ofNat, Nat.mod_eq_of_lt hlt, Int.toNat_of_nonneg hlo]

/-- An expected value in range has one pattern, which read unsigned is the value modulo `2^(8w)`. -/
theorem expectedPattern_of_in_range {w : Width} {e : Int} (hlo : -(2 ^ (w.bits - 1)) ≤ e) (hhi : e < 2 ^ w.bits) :
    ∃ p, expectedPattern w e = some p ∧ (p.toNat : Int) = if 0 ≤ e then e else e + 2 ^ w.bits := by
  by_cases he : 0 ≤ e
  · rw [expectedPattern, if_pos ⟨he, hhi⟩, if_pos he]
    exact ⟨_, rfl, toNat_ofNat_toNat he hhi⟩
  · have hhalf : (2 : Int) ^ (w.bits - 1) ≤ 2 ^ w.bits := pow_le_pow_right₀ (by decide) (Nat.sub_le _ _)
    rw [expectedPattern, if_neg (fun h => he h.1), if_pos ⟨hlo, by omega⟩, if_neg he]
    exact ⟨_, rfl, toNat_ofNat_toNat (by omega) (by omega)⟩

/-- Settles O56: the range of the expected value decides first, then the port's bounds check, and two patterns of one width
are equal exactly when their unsigned values are. -/
theorem inspectionRule : Obligations.InspectionRule := by
  intro s a w e
  refine ⟨fun hs => inspect_of_not_halted hs _, fun hs => ?_⟩
  rw [inspect_of_halted hs, runCheck, memRead_eq]
  refine ⟨fun hout => ?_, fun hlo hhi hpast => ?_, fun hlo hhi hin => ?_⟩
  · rw [expectedPattern_of_out_of_range hout]
  · obtain ⟨p, hp, -⟩ := expectedPattern_of_in_range hlo hhi
    rw [hp, boundsFault_past hpast]
  · obtain ⟨p, hp, hvalue⟩ := expectedPattern_of_in_range hlo hhi
    rw [hp, boundsFault_inside hin, ← hvalue]
    exact ⟨_, rfl, by simp only [Nat.cast_inj, BitVec.toNat_inj]⟩

end Sys2Proof.Machine

namespace Sys2Proof

/-! ## The spec's example words (R130, R131, R141, R161 to R163) -/

/-- Settles O5: each word is the encoding of its instruction, with no byte left over. -/
theorem specExampleWordsDecode : Obligations.SpecExampleWordsDecode := by
  and_intros <;> exact decode_of_eq_encode (by decide) (by decide)

end Sys2Proof
